-- ==== Sys2Proof/Word.lean ====
section
/-! DEFINITION. The types of the unit's values whose width is fixed. "All values are unsigned" (00_scope.md
R10). A value whose width is a parameter of R7 (`BUFW`, `CNTW`, `TSW`, `KEYW`, `LENW`, `IDW`) is a
natural number: each operation that writes one reduces it to the width in Config, and that it fits is
part of the invariant (Safety.lean; log 6). -/

namespace Sys2Proof

/-- One byte: a cell of the digit store, a character, a byte of an output line. -/
abbrev Byte := BitVec 8

/-- One received bit. -/
abbrev Bit := BitVec 1

/-- The value of a frame of `CREDENTIAL_WIDTH` = 26 bits, which R7 fixes (R73). -/
abbrev RawFrame := BitVec 26

/-- The 24-bit payload of a credential frame (R73). -/
abbrev Payload := BitVec 24

end Sys2Proof
end

