-- ==== Sys2Proof/Config.lean ====
section
/-! DEFINITION. The implementation parameters of 00_scope.md R7, each a field with R7's default. No
operation of the unit changes one (R36, R37, R196; log 7). `NCH` = 2 is the type `Chan` and
`CREDENTIAL_WIDTH` = 26 a constant: R7 fixes both. The spec leaves no result open, so there is no
free value here. -/

namespace Sys2Proof

/-- The two transitions of a pin (R7 `EDGE_POL`). -/
inductive Transition where
  | falling
  | rising
deriving DecidableEq, Repr

/-- `CREDENTIAL_WIDTH` = 26: the one frame length that is a credential (R7, R72). Fixed. -/
def credentialWidth : Nat := 26

/-- The parameters of R7, each with its default. -/
structure Config where
  /-- `QUIET_PERIOD_US`, microseconds (R7, R37). -/
  quietPeriodUs : Nat := 75000
  /-- `BUTTON_TIMEOUT_MS`, milliseconds (R7, R37). -/
  buttonTimeoutMs : Nat := 2000
  /-- `BUFW`, the width of `buf[c]` (R22, D3). -/
  bufw : Nat := 32
  /-- `CNTW`, the width of `cnt[c]` (R23, D4). -/
  cntw : Nat := 8
  /-- `TSW`, the width of both clocks, of `ts[c]` and of `last[c]` (R13, D5). -/
  tsw : Nat := 32
  /-- `KEYW`, the width of a button code (R74, D10). -/
  keyw : Nat := 4
  /-- `KEY_ESC`, the code of ESCAPE (R7, R75, D11). -/
  keyEsc : Nat := 10
  /-- `KEY_ENT`, the code of ENTER (R7, R75, D11). -/
  keyEnt : Nat := 11
  /-- `PCAP`, the passcode capacity in characters (R7, R30, D13). -/
  pcap : Nat := 19
  /-- `LENW`, the width of `len[c]` (R31). -/
  lenw : Nat := 5
  /-- `FMT`, the credential decode format, a one-bit input (R36, D18). -/
  fmt : Bit := 1
  /-- `IDW`, the width of the credential id output (R7, D19). -/
  idw : Nat := 26
  /-- `NL`, the line terminator of the reporter (R164, D24). -/
  nl : List Byte := [0x0A]
  /-- `EDGE_POL`, the pin transition that is the trigger edge (R70, D7). No rule above the pins
  depends on it. -/
  edgePol : Transition := .falling
deriving DecidableEq, Repr

/-- The parameters at the values the spec fixes. -/
def Config.default : Config := {}

/-- The constraint column of R7's table; "the rules are written for any value that meets the
constraint column". -/
structure Config.Wf (cfg : Config) : Prop where
  quiet_pos : 0 < cfg.quietPeriodUs
  quiet_lt : cfg.quietPeriodUs < 2 ^ cfg.tsw
  timeout_pos : 0 < cfg.buttonTimeoutMs
  timeout_lt : cfg.buttonTimeoutMs < 2 ^ cfg.tsw
  credential_le_bufw : credentialWidth ≤ cfg.bufw
  credential_lt_max : credentialWidth < 2 ^ cfg.cntw - 1
  tsw_ge : 18 ≤ cfg.tsw
  keyw_ge : 4 ≤ cfg.keyw
  keyw_le : cfg.keyw ≤ cfg.bufw
  esc_not_digit : 9 < cfg.keyEsc
  esc_lt : cfg.keyEsc < 2 ^ cfg.keyw
  ent_not_digit : 9 < cfg.keyEnt
  ent_lt : cfg.keyEnt < 2 ^ cfg.keyw
  esc_ne_ent : cfg.keyEsc ≠ cfg.keyEnt
  two_le_pcap : 2 ≤ cfg.pcap
  pcap_lt : cfg.pcap < 2 ^ cfg.lenw
  idw_eq : cfg.idw = credentialWidth
  nl_nonempty : cfg.nl ≠ []

end Sys2Proof
end

