-- ==== Sys2Proof/Syntax.lean ====
section
/-! DEFINITION. The operations of the unit (30_encoding.md R80), one constructor per row of
spec/opcode_table.json, and the formats those rows are written in. -/

namespace Sys2Proof

/-- A channel number: "exactly two channels, numbered 1 and 2" (R3). -/
inductive Chan where
  | ch1
  | ch2
deriving DecidableEq, Repr

/-- The "format" column of spec/opcode_table.json. Rows of different formats share bit patterns,
so a record carries its format (log 3). -/
inductive Format where
  /-- The operation byte of a trace record (R85). -/
  | opbyte
  /-- The decode-format input (R36). -/
  | fmt
  /-- W26, the 26-bit credential frame (R73). -/
  | frame26
  /-- WKEY, the keypad frame (R74). -/
  | framekey
  /-- The button dispatch KEY (R136). -/
  | internal
  /-- The button code map (R75). -/
  | button
  /-- The reporter's two lines, selected by their first byte (R161, R162). -/
  | line
deriving DecidableEq, Repr

/-- The operations. The first five are the environment's, "the only way state changes" (R80). The rest
"are internal steps that a `POLL` performs and are listed so that every behaviour has a mnemonic"
(R80), and the reporter's two functions. -/
inductive Instr where
  /-- `EDGE0 c` (R102). -/
  | edge0 (c : Chan)
  /-- `EDGE1 c` (R103). -/
  | edge1 (c : Chan)
  /-- `POLL c` (R110). -/
  | poll (c : Chan)
  /-- `POLLALL` (R116). -/
  | pollall
  /-- `RESET` (R195). -/
  | reset
  /-- `DEC0 v` (R127). -/
  | dec0 (v : RawFrame)
  /-- `DEC1 v` (R128). -/
  | dec1 (v : RawFrame)
  /-- `W26`: a closed credential frame `L id T` of channel `c` (R73; log 5). -/
  | w26 (c : Chan) (l : Bit) (id : Payload) (t : Bit)
  /-- `WKEY`: a closed keypad frame of channel `c`, captured value `v` of `BUFW` bits (R74; log 5). -/
  | wkey (c : Chan) (v : Nat)
  /-- `KEY c, code`, a code of `KEYW` bits (R136). -/
  | key (c : Chan) (code : Nat)
  /-- `KESC c` (R142). -/
  | kesc (c : Chan)
  /-- `KENT c` (R144). -/
  | kent (c : Chan)
  /-- `KDIGIT c, code`, a code of `KEYW` bits (R146). -/
  | kdigit (c : Chan) (code : Nat)
  /-- `RPTF id, ch`, an id of `IDW` bits (R161). -/
  | rptf (id : Nat) (ch : Chan)
  /-- `RPTP digits, ch` (R162). -/
  | rptp (digits : List Byte) (ch : Chan)
deriving DecidableEq, Repr

/-- The format of an operation's row in spec/opcode_table.json. -/
def Instr.format : Instr → Format
  | .edge0 _ => .opbyte
  | .edge1 _ => .opbyte
  | .poll _ => .opbyte
  | .pollall => .opbyte
  | .reset => .opbyte
  | .dec0 _ => .fmt
  | .dec1 _ => .fmt
  | .w26 _ _ _ _ => .frame26
  | .wkey _ _ => .framekey
  | .key _ _ => .internal
  | .kesc _ => .button
  | .kent _ => .button
  | .kdigit _ _ => .button
  | .rptf _ _ => .line
  | .rptp _ _ => .line

/-- The operations the environment applies: "the only way state changes" (R80). -/
def Instr.isEnvironment (i : Instr) : Bool := i.format == .opbyte

/-- What can be applied by itself: the environment's operations, and `RPTF` and `RPTP`, which "may be
applied to `out` at any time; they read and write no unit state". "The internal operations are not
separately schedulable" (R82). -/
def Instr.schedulable (i : Instr) : Bool := i.isEnvironment || i.format == .line

/-- The two execution contexts of R182; not privilege modes. -/
inductive Context where
  | interrupt
  | main
deriving DecidableEq, Repr

/-- "Which context an operation belongs to is fixed by the operation" (R182). RESET is the
environment's and R182 gives it no context. -/
def Instr.context : Instr → Option Context
  | .edge0 _ => some .interrupt
  | .edge1 _ => some .interrupt
  | .reset => none
  | .poll _ => some .main
  | .pollall => some .main
  | .dec0 _ => some .main
  | .dec1 _ => some .main
  | .w26 _ _ _ _ => some .main
  | .wkey _ _ => some .main
  | .key _ _ => some .main
  | .kesc _ => some .main
  | .kent _ => some .main
  | .kdigit _ _ => some .main
  | .rptf _ _ => some .main
  | .rptp _ _ => some .main

end Sys2Proof
end

