-- ==== Sys2Proof/WellFormed.lean ====
section
/-! DEFINITION. Which terms of `Instr` are operations of the unit: operands within the widths of R7,
KDIGIT's excluded codes and RPTP's digit string. -/

namespace Sys2Proof

/-- A value of a width. -/
def fits (width v : Nat) : Bool := v < 2 ^ width

/-- A character a passcode can hold: `chr(code + 0x30)` of a `KEYW`-bit code (R146, R148). At the
default `KEYW` = 4 these are the bytes `0x30..0x3F` of R162 and of the table's RPTP row. -/
def isDigitChar (cfg : Config) (b : Byte) : Bool := fits cfg.keyw (b - 0x30#8).toNat

/-- KDIGIT takes "every button that is neither ESCAPE nor ENTER" (R146). -/
def isPlainButton (cfg : Config) (code : Nat) : Bool :=
  fits cfg.keyw code && code != cfg.keyEsc && code != cfg.keyEnt

/-- A digit string of a PASS event: 0 to `PCAP` bytes (R12), each a digit character (R162). -/
def isDigitString (cfg : Config) (digits : List Byte) : Bool :=
  digits.length ≤ cfg.pcap && digits.all (isDigitChar cfg)

/-- The well-formed operations of a unit with parameters `cfg`. -/
def Instr.wellFormed (cfg : Config) : Instr → Bool
  | .edge0 _ => true
  | .edge1 _ => true
  | .poll _ => true
  | .pollall => true
  | .reset => true
  | .dec0 _ => true
  | .dec1 _ => true
  | .w26 _ _ _ _ => true
  | .wkey _ v => fits cfg.bufw v
  | .key _ code => fits cfg.keyw code
  | .kesc _ => true
  | .kent _ => true
  | .kdigit _ code => isPlainButton cfg code
  | .rptf id _ => fits cfg.idw id
  | .rptp digits _ => isDigitString cfg digits

end Sys2Proof
end

