-- ==== Sys2Proof/Decode.lean ====
section
/-! DEFINITION. The decoder and the encoder of records (30_encoding.md R73, R74, R75, R78, R85, R36).
The operation byte is R85's. For the other formats the row's own bits are the spec's and the bytes
that carry the operands the table gives no bits are the model's layout (log 3): a channel byte is
R85's `CH` (0 = channel 1, 1 = channel 2), a value of a width stands least significant byte first
in as many bytes as the width needs. -/

namespace Sys2Proof

/-- Why a record names no operation. -/
inductive DecodeError where
  /-- R85: "Every other byte value is reserved: it names no operation". -/
  | reservedOpByte (b : Byte)
  /-- `FMT >= 2`: "the source defines no such format" (R78, U6). -/
  | reservedFormat (sel : Byte)
  /-- A value that its width does not hold (R7). -/
  | valueTooWide (width value : Nat)
  /-- A channel byte other than 0 and 1: the unit has two channels (R3). -/
  | reservedChannel (b : Byte)
  /-- A line that begins with neither 'F' nor 'P'. The 'G' line is the excluded CLI's (R166). -/
  | reservedLine (b : Byte)
  /-- The digits of an RPTP record are no digit string (R12, R162). -/
  | badDigits (digits : List Byte)
  /-- The record has a number of bytes its format does not have. -/
  | wrongLength (f : Format)
deriving DecidableEq, Repr

/-! ### Fields -/

/-- R85's `CH` as a whole byte (log 3). -/
def chanOfByte (b : Byte) : Except DecodeError Chan :=
  if b = 0 then .ok .ch1 else if b = 1 then .ok .ch2 else .error (.reservedChannel b)

/-- The byte of a channel. -/
def chanByte : Chan → Byte
  | .ch1 => 0
  | .ch2 => 1

/-- Bytes as one number, least significant first. -/
def leValue : List Byte → Nat
  | [] => 0
  | b :: bs => b.toNat + 256 * leValue bs

/-- `n` bytes of a number, least significant first. -/
def leBytes : Nat → Nat → List Byte
  | 0, _ => []
  | n + 1, w => BitVec.ofNat 8 w :: leBytes n (w / 256)

/-- How many bytes hold a value of a width. -/
def byteCount (width : Nat) : Nat := (width + 7) / 8

/-- The bytes of a value of a width. -/
def valueBytes (width v : Nat) : List Byte := leBytes (byteCount width) v

/-- The value of a width that bytes hold; refused where the width does not hold it. -/
def readValue (f : Format) (width : Nat) (bytes : List Byte) : Except DecodeError Nat :=
  if bytes.length ≠ byteCount width then .error (.wrongLength f)
  else if leValue bytes < 2 ^ width then .ok (leValue bytes)
  else .error (.valueTooWide width (leValue bytes))

/-- A value of a width and the channel byte behind it. -/
def readValueChan (f : Format) (width : Nat) (bytes : List Byte) :
    Except DecodeError (Nat × Chan) :=
  match bytes.getLast? with
  | none => .error (.wrongLength f)
  | some ch =>
    match readValue f width bytes.dropLast, chanOfByte ch with
    | .ok v, .ok c => .ok (v, c)
    | .error e, _ => .error e
    | .ok _, .error e => .error e

/-! ### The formats -/

/-- The operation byte of R85: `OP` in bits 7:4, zero in 3:2, `CH` in bit 1, `B` in bit 0. -/
def decodeOpByte (b : Byte) : Except DecodeError Instr :=
  let op := b.extractLsb' 4 4
  let zero := b.extractLsb' 2 2
  let c : Chan := if b.getLsbD 1 then .ch2 else .ch1
  if zero ≠ 0 then .error (.reservedOpByte b)
  else if op = 0b0001 then .ok (if b.getLsbD 0 then .edge1 c else .edge0 c)
  else if b.getLsbD 0 then .error (.reservedOpByte b)
  else if op = 0b0010 then .ok (.poll c)
  else if b.getLsbD 1 then .error (.reservedOpByte b)
  else if op = 0b0011 then .ok .pollall
  else if op = 0b1111 then .ok .reset
  else .error (.reservedOpByte b)

/-- DEC0 and DEC1 by the value of `FMT` (R36, R126); `FMT >= 2` is refused (R78). -/
def decodeFmt (sel : Byte) (rest : List Byte) : Except DecodeError Instr :=
  if sel = 0 then (readValue .fmt credentialWidth rest).map fun v => .dec0 (BitVec.ofNat 26 v)
  else if sel = 1 then (readValue .fmt credentialWidth rest).map fun v => .dec1 (BitVec.ofNat 26 v)
  else .error (.reservedFormat sel)

/-- W26: bit 25 is `L`, bits 24:1 are `id`, bit 0 is `T` (R73). -/
def w26OfValue (c : Chan) (v : RawFrame) : Instr :=
  .w26 c (v.extractLsb' 25 1) (v.extractLsb' 1 24) (v.extractLsb' 0 1)

/-- The button code map of R75: `KEY_ESC` and `KEY_ENT` first, every other code is KDIGIT's. -/
def buttonOfCode (cfg : Config) (c : Chan) (code : Nat) : Instr :=
  if code = cfg.keyEsc then .kesc c else if code = cfg.keyEnt then .kent c else .kdigit c code

/-- RPTF ('F', 0x46) and RPTP ('P', 0x50) with their operands. -/
def decodeLine (cfg : Config) (tag ch : Byte) (rest : List Byte) : Except DecodeError Instr :=
  match chanOfByte ch with
  | .error e => .error e
  | .ok c =>
    if tag = 0x46 then (readValue .line cfg.idw rest).map fun id => .rptf id c
    else if tag = 0x50 then
      if isDigitString cfg rest then .ok (.rptp rest c) else .error (.badDigits rest)
    else .error (.reservedLine tag)

/-- The decoder: total on any bytes of any format, refusing by name. -/
def decode (cfg : Config) (f : Format) (bytes : List Byte) : Except DecodeError Instr :=
  match f with
  | .opbyte =>
    match bytes with
    | [b] => decodeOpByte b
    | _ => .error (.wrongLength f)
  | .fmt =>
    match bytes with
    | sel :: rest => decodeFmt sel rest
    | [] => .error (.wrongLength f)
  | .frame26 =>
    (readValueChan f credentialWidth bytes).map fun p => w26OfValue p.2 (BitVec.ofNat 26 p.1)
  | .framekey => (readValueChan f cfg.bufw bytes).map fun p => .wkey p.2 p.1
  | .internal => (readValueChan f cfg.keyw bytes).map fun p => .key p.2 p.1
  | .button => (readValueChan f cfg.keyw bytes).map fun p => buttonOfCode cfg p.2 p.1
  | .line =>
    match bytes with
    | tag :: ch :: rest => decodeLine cfg tag ch rest
    | _ => .error (.wrongLength f)

/-! ### The encoder -/

/-- The operation byte of R85 from its fields. -/
def opByte (op : BitVec 4) (c : Chan) (b : Bit) : Byte :=
  op ++ (0 : BitVec 2) ++ (match c with | .ch1 => (0 : Bit) | .ch2 => (1 : Bit)) ++ b

/-- The value of a credential frame, `(L << 25) | (id << 1) | T` (R73). -/
def frameValue (l : Bit) (id : Payload) (t : Bit) : RawFrame := l ++ id ++ t

/-- The bytes of a record of the operation, in the format of its row. -/
def encode (cfg : Config) : Instr → List Byte
  | .edge0 c => [opByte 0b0001 c 0]
  | .edge1 c => [opByte 0b0001 c 1]
  | .poll c => [opByte 0b0010 c 0]
  | .pollall => [opByte 0b0011 .ch1 0]
  | .reset => [opByte 0b1111 .ch1 0]
  | .dec0 v => 0 :: valueBytes credentialWidth v.toNat
  | .dec1 v => 1 :: valueBytes credentialWidth v.toNat
  | .w26 c l id t => valueBytes credentialWidth (frameValue l id t).toNat ++ [chanByte c]
  | .wkey c v => valueBytes cfg.bufw v ++ [chanByte c]
  | .key c code => valueBytes cfg.keyw code ++ [chanByte c]
  | .kesc c => valueBytes cfg.keyw cfg.keyEsc ++ [chanByte c]
  | .kent c => valueBytes cfg.keyw cfg.keyEnt ++ [chanByte c]
  | .kdigit c code => valueBytes cfg.keyw code ++ [chanByte c]
  | .rptf id ch => 0x46 :: chanByte ch :: valueBytes cfg.idw id
  | .rptp digits ch => 0x50 :: chanByte ch :: digits

/-! ### The opcode table -/

/-- A row of spec/opcode_table.json: a word of the row has `pattern` under `mask`. -/
structure OpcodeRow where
  mnemonic : String
  format : Format
  pattern : BitVec 32
  mask : BitVec 32
deriving DecidableEq, Repr

/-- The row of an operation, columns "mnemonic", "format", "match" and "mask" as the table has
them. Rows with an empty mask are selected by something other than their bits (log 4). -/
def Instr.row : Instr → OpcodeRow
  | .edge0 _ => ⟨"EDGE0", .opbyte, 0x10, 0xFD⟩
  | .edge1 _ => ⟨"EDGE1", .opbyte, 0x11, 0xFD⟩
  | .poll _ => ⟨"POLL", .opbyte, 0x20, 0xFD⟩
  | .pollall => ⟨"POLLALL", .opbyte, 0x30, 0xFF⟩
  | .reset => ⟨"RESET", .opbyte, 0xF0, 0xFF⟩
  | .dec0 _ => ⟨"DEC0", .fmt, 0x0, 0x1⟩
  | .dec1 _ => ⟨"DEC1", .fmt, 0x1, 0x1⟩
  | .w26 _ _ _ _ => ⟨"W26", .frame26, 0x0, 0x0⟩
  | .wkey _ _ => ⟨"WKEY", .framekey, 0x0, 0x0⟩
  | .key _ _ => ⟨"KEY", .internal, 0x0, 0x0⟩
  | .kesc _ => ⟨"KESC", .button, 0xA, 0xF⟩
  | .kent _ => ⟨"KENT", .button, 0xB, 0xF⟩
  | .kdigit _ _ => ⟨"KDIGIT", .button, 0x0, 0x0⟩
  | .rptf _ _ => ⟨"RPTF", .line, 0x46, 0xFF⟩
  | .rptp _ _ => ⟨"RPTP", .line, 0x50, 0xFF⟩

/-! ### A table word as a record (log 4) -/

/-- Is the byte one of the eight R85 defines? -/
def isOpByte (b : Byte) : Bool :=
  match decodeOpByte b with
  | .ok _ => true
  | .error _ => false

/-- The format of a word of the table that is given without one. Only W26 has more than a byte;
a one-bit word is `FMT`, a nibble a button; a whole byte is an operation byte where R85 defines it,
else a line's first byte, else `FMT` for 0 and 1 and a button up to 15. -/
def tableFormat (nbits w : Nat) : Format :=
  if 8 < nbits then .frame26
  else if nbits ≤ 1 then .fmt
  else if nbits ≤ 4 then .button
  else if isOpByte (BitVec.ofNat 8 w) then .opbyte
  else if w = 0x46 ∨ w = 0x50 then .line
  else if w ≤ 1 then .fmt
  else if w ≤ 15 then .button
  else .opbyte

/-- How many bytes a record of the format has; an RPTP record, which has no fixed length, none behind
its channel byte. -/
def tableLength (cfg : Config) (f : Format) (w : Nat) : Nat :=
  match f with
  | .opbyte => 1
  | .fmt => 1 + byteCount credentialWidth
  | .frame26 => byteCount credentialWidth + 1
  | .framekey => byteCount cfg.bufw + 1
  | .internal => byteCount cfg.keyw + 1
  | .button => byteCount cfg.keyw + 1
  | .line => if w = 0x50 then 2 else 2 + byteCount cfg.idw

/-- The bytes of a table word: its bits, then operand bytes of zeros. -/
def tableBytes (cfg : Config) (nbits w : Nat) : List Byte :=
  leBytes (max (tableLength cfg (tableFormat nbits w) w) (byteCount nbits)) w

/-- The operation the decoder reads from a table word (parameters at their defaults). -/
def decodeTableWord (nbits w : Nat) : Option Instr :=
  match decode Config.default (tableFormat nbits w) (tableBytes Config.default nbits w) with
  | .ok i => some i
  | .error _ => none

end Sys2Proof
end

