-- ==== Sys2Proof/Machine/State.lean ====
section
/-! DEFINITION. The state of the capture unit (10_state.md R20), the parameters it is built with,
and what the environment drives and is handed; the ways a step can stop; the state after reset. -/

namespace Sys2Proof.Machine

/-- The digit store of one channel (R30, R39): (index, byte) pairs, indices strictly rising, no
entry equal to 0, which is what an unlisted cell holds (the reset contents, R41; log 10). -/
abbrev Memory := List Host.Cell

/-- The events of the log `out` (R12). -/
inductive Event where
  /-- `CRED(id, ch)` with an `IDW`-bit id, the source's `onCredentialDecoded`. -/
  | cred (id : Nat) (ch : Chan)
  /-- `PASS(digits, ch)`, the source's `onPasscodeSubmitted`. -/
  | pass (digits : List Byte) (ch : Chan)
deriving DecidableEq, Repr

/-- The registers of one channel (R20): the source's Channel record (R21), its PasscodeSession
record (R29) and its auxiliary output line (R34). -/
structure Channel where
  /-- `buf[c]`, the shift register, `BUFW` bits (R22). -/
  buf : Nat
  /-- `cnt[c]`, the saturating bit counter, `CNTW` bits (R23). -/
  cnt : Nat
  /-- `open[c]`: false = IDLE, true = OPEN (R24). -/
  frameOpen : Bool
  /-- `ts[c]`, the first-bit timestamp in microseconds, `TSW` bits (R25). -/
  ts : Nat
  /-- `dig[c][0..PCAP-1]`, the digit store, one byte a cell (R30). -/
  dig : Memory
  /-- `len[c]`, number of characters and next index, `LENW` bits (R31). -/
  len : Nat
  /-- `last[c]`, the latest button arrival in milliseconds, `TSW` bits (R32). -/
  last : Nat
  /-- `aux[c]`, the auxiliary output line, true = asserted (R34). -/
  aux : Bool
deriving DecidableEq, Repr

/-- One operation with the clock samples it is applied with: for format `opbyte` the trace record of
R85, "the triple (operation byte, now_us, now_ms)". The samples may be true times: the clocks show
them modulo `2^TSW` (R13). -/
structure Record where
  format : Format
  bytes : List Byte
  nowUs : Nat
  nowMs : Nat
deriving DecidableEq, Repr

/-- The model's own: what a pure function of the unit returned: a reporter function that was applied
(R82), or a decoder's meaning taken by itself (R131; log 2). -/
inductive Returned where
  | nothing
  | id (v : Nat)
  | line (bytes : List Byte)
deriving DecidableEq, Repr

/-- What stops the machine. The unit itself has no fault (R170). -/
inductive Fault where
  /-- Raised by KENT and KDIGIT on an access to a digit cell at index `PCAP` or above, which does not
  exist (R51). Safe: no state that meets the invariant gets there (R52; log 10). -/
  | noSuchDigitCell (c : Chan) (i : Nat)
deriving DecidableEq, Repr

/-- Why a step has no meaning. -/
inductive Refusal where
  /-- Raised by `exec` for an instruction without a meaning. Safe: nothing follows from it. -/
  | notModelled (mnemonic : String)
  /-- Raised by `step` on a record that names no operation (R85, R78). Safe: nothing happens. -/
  | undecodable (e : DecodeError)
  /-- Raised by `step` on a record of an internal operation: those "are not separately schedulable"
  and "run inside the `POLL` that triggers them" (R82). Safe: nothing happens. -/
  | notSchedulable (i : Instr)
deriving DecidableEq, Repr

/-- The whole machine. `ch1`, `ch2` and `out` are the unit's state (R20); `cfg` is its parameters
(R7); `nowUs` and `nowMs` are the clock inputs (R13); `input` is what the environment still applies
(R81); `ret` is the model's own observation. -/
structure State where
  ch1 : Channel
  ch2 : Channel
  out : List Event
  cfg : Config
  nowUs : Nat
  nowMs : Nat
  input : List Record
  ret : Returned
deriving DecidableEq, Repr

/-- A channel after reset: every register 0, IDLE, EMPTY, `aux` deasserted (R41). -/
def Channel.reset : Channel where
  buf := 0
  cnt := 0
  frameOpen := false
  ts := 0
  dig := []
  len := 0
  last := 0
  aux := false

/-- The machine right after reset (R41, R197), with the default parameters of R7. The inputs and
`ret` are no registers of the unit: log 8 names their values. -/
def State.reset : State where
  ch1 := Channel.reset
  ch2 := Channel.reset
  out := []
  cfg := Config.default
  nowUs := 0
  nowMs := 0
  input := []
  ret := .nothing

end Sys2Proof.Machine
end

