-- ==== Sys2Proof/Machine/Ops.lean ====
section
/-! DEFINITION. The named operations over the registers, the digit store and the event log. The unit
raises no exception (R170), so there is no exception entry here: what an ISA would call taking an
interrupt is the edge operation itself, Capture.lean (R177). -/

namespace Sys2Proof.Machine

/-- The answer of one operation. -/
abbrev Answer := Host.Outcome State Fault Refusal

/-- Sequential pseudocode (R15): the second part sees the writes of the first. -/
def andThen (a : Answer) (f : State → Answer) : Answer :=
  match a with
  | .next s => f s
  | .fault r => .fault r
  | .refused r => .refused r

/-- `andThen` with a part that cannot stop. -/
def thenDo (a : Answer) (f : State → State) : Answer :=
  match a with
  | .next s => .next (f s)
  | .fault r => .fault r
  | .refused r => .refused r

/-! ### The registers of a channel (R11) -/

/-- The registers of channel `c`. -/
def State.chan (s : State) : Chan → Channel
  | .ch1 => s.ch1
  | .ch2 => s.ch2

/-- Writes the registers of channel `c`, and nothing else. -/
def State.setChan (s : State) (c : Chan) (k : Channel) : State :=
  match c with
  | .ch1 => { s with ch1 := k }
  | .ch2 => { s with ch2 := k }

/-- `emit E` appends to the log (R12). -/
def State.emit (s : State) (e : Event) : State := { s with out := s.out ++ [e] }

/-- The channel an event names (R12). -/
def Event.chan : Event → Chan
  | .cred _ ch => ch
  | .pass _ ch => ch

/-! ### The digit store (R30, R39, R51) -/

/-- The byte a cell holds; an unlisted cell holds its reset value 0 (R41). -/
def Memory.read : Memory → Nat → Byte
  | [], _ => 0#8
  | (a, b) :: m, i => if a = i then b else Memory.read m i

/-- Writes a cell and keeps the list canonical: writing 0 removes the entry. -/
def Memory.write : Memory → Nat → Byte → Memory
  | [], i, v => if v = 0#8 then [] else [(i, v)]
  | (a, b) :: m, i, v =>
    if i < a then (if v = 0#8 then (a, b) :: m else (i, v) :: (a, b) :: m)
    else if i = a then (if v = 0#8 then m else (i, v) :: m)
    else (a, b) :: Memory.write m i v

/-- Addresses strictly rising from `lo`, no entry 0. -/
def Memory.wfFrom : Nat → Memory → Bool
  | _, [] => true
  | lo, (a, b) :: m => lo ≤ a && b != 0#8 && Memory.wfFrom (a + 1) m

/-- The canonical form. -/
def Memory.wf (m : Memory) : Bool := Memory.wfFrom 0 m

/-- Every listed cell lies below `n`. -/
def Memory.below (n : Nat) (m : Memory) : Bool := m.all fun cell => cell.1 < n

/-- `DigRead(c, i)` (R11); "No index `>= PCAP` exists" (R51). -/
def digRead (cfg : Config) (c : Chan) (m : Memory) (i : Nat) : Except Fault Byte :=
  if i < cfg.pcap then .ok (Memory.read m i) else .error (.noSuchDigitCell c i)

/-- `DigWrite(c, i, v)` (R11). -/
def digWrite (cfg : Config) (c : Chan) (m : Memory) (i : Nat) (v : Byte) : Except Fault Memory :=
  if i < cfg.pcap then .ok (Memory.write m i v) else .error (.noSuchDigitCell c i)

/-- The `n` cells from index `i`, in index order (R54). -/
def digString (cfg : Config) (c : Chan) (m : Memory) : Nat → Nat → Except Fault (List Byte)
  | _, 0 => .ok []
  | i, n + 1 =>
    match digRead cfg c m i with
    | .error f => .error f
    | .ok b =>
      match digString cfg c m (i + 1) n with
      | .error f => .error f
      | .ok bs => .ok (b :: bs)

/-! ### Time (R13) -/

/-- `elapsed(a, b) = (a - b) mod 2^TSW`, where "`a mod m` is the non-negative remainder" (R10). -/
def elapsed (cfg : Config) (now then_ : Nat) : Nat :=
  (((now : Int) - then_) % 2 ^ cfg.tsw).toNat

/-! ### The reset of a channel at frame close (R114) -/

/-- "The reset at frame close writes exactly `buf[c] <- 0`, `cnt[c] <- 0`, `open[c] <- 0`". -/
def closeFrame (c : Chan) (s : State) : State :=
  s.setChan c { s.chan c with buf := 0, cnt := 0, frameOpen := false }

end Sys2Proof.Machine
end

