-- ==== Sys2Proof/Machine/Operands.lean ====
section
/-! DEFINITION. Operand assembly (30_encoding.md R76) and the number forms of 00_scope.md R14: every
way the unit forms one value from another. No value is sign-extended or scaled (R76). -/

namespace Sys2Proof.Machine

/-- R76 (a), R100: `((buf << 1) | b) mod 2^BUFW`; the oldest bit is lost past bit `BUFW-1`
(R104). -/
def shiftIn (cfg : Config) (buf : Nat) (b : Bit) : Nat :=
  ((buf <<< 1) ||| b.toNat) % 2 ^ cfg.bufw

/-- `sat_inc(n) = n + 1 if n < 2^CNTW - 1 else n` (R14). -/
def satInc (cfg : Config) (n : Nat) : Nat := if n < 2 ^ cfg.cntw - 1 then n + 1 else n

/-- R76 (b): the credential value `v = buf[c][25:0]`. -/
def credentialValue (buf : Nat) : RawFrame := BitVec.ofNat 26 buf

/-- R127: `DEC0(v) = v`, an `IDW`-bit result, both parity bits included. -/
def dec0Value (cfg : Config) (v : RawFrame) : Nat := v.toNat % 2 ^ cfg.idw

/-- R128: `DEC1(v) = zext_IDW((v & ~(1 << 25)) >> 1)`. -/
def dec1Value (cfg : Config) (v : RawFrame) : Nat :=
  ((v &&& ~~~((1 : RawFrame) <<< 25)) >>> 1).toNat % 2 ^ cfg.idw

/-- R126: the dispatch `DEC(FMT, v)`. -/
def decValue (cfg : Config) (v : RawFrame) : Nat :=
  if cfg.fmt = 0 then dec0Value cfg v else dec1Value cfg v

/-- R76 (d), R74: the button code `buf[c][KEYW-1:0]`. -/
def buttonCode (cfg : Config) (buf : Nat) : Nat := buf % 2 ^ cfg.keyw

/-- R76 (e), R146, R148: `chr(code + 0x30)`, "the one byte with value `n mod 256`" (R14). -/
def digitChar (code : Nat) : Byte := BitVec.ofNat 8 (code + 0x30)

/-- R146: the index a character is written at: `len[c]`, or 1 where the session is full. -/
def writeIndex (cfg : Config) (len : Nat) : Nat := if cfg.pcap ≤ len then 1 else len

/-- Decimal digits of `n` before the digits `tail`, least significant found first. -/
def decFrom : Nat → Nat → List Byte → List Byte
  | 0, _, tail => tail
  | fuel + 1, n, tail =>
    let d : Byte := BitVec.ofNat 8 (n % 10 + 0x30)
    if n < 10 then d :: tail else decFrom fuel (n / 10) (d :: tail)

/-- `dec(n)`: "the shortest string of ASCII digits ..., most significant first, no sign, no leading
zero, and "0" for n = 0" (R14). A number has at most as many decimal digits as binary ones. -/
def decText (n : Nat) : List Byte := decFrom (Nat.log2 n + 1) n []

/-- The number of a channel (R3). -/
def chanNumber : Chan → Nat
  | .ch1 => 1
  | .ch2 => 2

end Sys2Proof.Machine
end

