-- ==== Sys2Proof/Machine/Flags.lean ====
section
/-! DEFINITION. The status bits and the tests that set or read them (10_state.md R28). There are no
condition codes and no error flags. -/

namespace Sys2Proof.Machine

/-- `acc[c] = (len[c] != 0)`: the session is ACCUMULATING (R28, R33). -/
def Channel.acc (k : Channel) : Bool := k.len != 0

/-- Steps 2 and 3 of R110: more than `QUIET_PERIOD_US` since the first bit, strictly (R112). -/
def quietOver (cfg : Config) (nowUs : Nat) (k : Channel) : Bool :=
  cfg.quietPeriodUs < elapsed cfg nowUs k.ts

/-- R138: ACCUMULATING and the latest button more than `BUTTON_TIMEOUT_MS` old, strictly. -/
def stale (cfg : Config) (nowMs : Nat) (k : Channel) : Bool :=
  k.acc && cfg.buttonTimeoutMs < elapsed cfg nowMs k.last

/-- R144: what ENTER writes to `aux[c]`: is there a first character and is it '8' (0x38)? -/
def auxFlag (k : Channel) : Bool := 1 ≤ k.len && Memory.read k.dig 0 == 0x38

/-- "The passcode a session holds is the byte sequence `dig[c][0], ..., dig[c][len[c]-1]`" (R31). -/
def Channel.passcode (k : Channel) : List Byte := (List.range' 0 k.len).map (Memory.read k.dig)

/-- The frame's length makes it a credential (R72, R113). -/
def isCredential (k : Channel) : Bool := k.cnt == credentialWidth

end Sys2Proof.Machine
end

