-- ==== Sys2Proof/Machine/Capture.lean ====
section
/-! DEFINITION. BitCapture (40_bitcapture.md): EDGE0 and EDGE1, the interrupt context's operations.
This is also the whole of interrupt entry and return: no state is saved, no mode changes (R177,
R178). -/

namespace Sys2Proof.Machine

/-- The channel's part of `CAPTURE(c, b, now_us)` (R100). -/
def captureBit (cfg : Config) (b : Bit) (nowUs : Nat) (k : Channel) : Channel :=
  let k := if k.frameOpen then k else { k with frameOpen := true, buf := 0, cnt := 0, ts := nowUs }
  { k with buf := shiftIn cfg k.buf b, cnt := satInc cfg k.cnt }

/-- `CAPTURE(c, b, now_us)` (R100): writes the addressed channel only (R105). -/
def capture (c : Chan) (b : Bit) (s : State) : State :=
  s.setChan c (captureBit s.cfg b s.nowUs (s.chan c))

/-- `EDGE0 c`: `CAPTURE(c, 0, now_us)` (R102). -/
def execEdge0 (c : Chan) (s : State) : Answer := .next (capture c 0 s)

/-- `EDGE1 c`: `CAPTURE(c, 1, now_us)` (R103). -/
def execEdge1 (c : Chan) (s : State) : Answer := .next (capture c 1 s)

end Sys2Proof.Machine
end

