-- ==== Sys2Proof/Machine/Credential.lean ====
section
/-! DEFINITION. CredentialDecoder (42_credential_decoder.md): DEC0, DEC1 and the credential frame
W26. Parity is not checked (R129). -/

namespace Sys2Proof.Machine

/-- The credential branch of a closing poll: `emit CRED(DEC(FMT, v[25:0]), c)` (R110, R126). -/
def credentialFrame (c : Chan) (v : RawFrame) (s : State) : State :=
  s.emit (.cred (decValue s.cfg v) c)

/-- The result of a decoder's meaning taken by itself (log 2): the decoder "takes" a value and gives
"back an `IDW`-bit number" (R126); "it reads no state, writes no state" (R131). -/
def returnId (v : Nat) (s : State) : State := { s with ret := .id v }

/-- `DEC0 v` (R127). -/
def execDec0 (v : RawFrame) (s : State) : Answer := .next (returnId (dec0Value s.cfg v) s)

/-- `DEC1 v` (R128). -/
def execDec1 (v : RawFrame) (s : State) : Answer := .next (returnId (dec1Value s.cfg v) s)

/-- W26 (R73): a closed credential frame `L id T` of channel `c` (log 5). -/
def execW26 (c : Chan) (l : Bit) (id : Payload) (t : Bit) (s : State) : Answer :=
  .next (credentialFrame c (frameValue l id t) s)

end Sys2Proof.Machine
end

