-- ==== Sys2Proof/Machine/Keypad.lean ====
section
/-! DEFINITION. The keypad button decoder and passcode session (43_keypad.md): KEY, KESC, KENT,
KDIGIT and the keypad frame WKEY. -/

namespace Sys2Proof.Machine

/-- The effect of staleness: `len[c] <- 0`, nothing else (R138). -/
def dropStale (c : Chan) (s : State) : State :=
  if stale s.cfg s.nowMs (s.chan c) then s.setChan c { s.chan c with len := 0 } else s

/-- ESCAPE: `len[c] <- 0` (R142). -/
def escape (c : Chan) (s : State) : State := s.setChan c { s.chan c with len := 0 }

/-- ENTER (R144): emits the passcode, sets `aux[c]`, empties the session. -/
def enter (c : Chan) (s : State) : Answer :=
  let k := s.chan c
  match digString s.cfg c k.dig 0 k.len with
  | .error f => .fault f
  | .ok digits => .next ((s.emit (.pass digits c)).setChan c { k with aux := auxFlag k, len := 0 })

/-- Any other button (R146): wraps a full session to index 1, writes the character, counts it. -/
def appendDigit (c : Chan) (code : Nat) (s : State) : Answer :=
  let k := s.chan c
  let i := writeIndex s.cfg k.len
  match digWrite s.cfg c k.dig i (digitChar code) with
  | .error f => .fault f
  | .ok dig => .next (s.setChan c { k with dig := dig, len := (i + 1) % 2 ^ s.cfg.lenw })

/-- `last[c] <- now_ms` (R150). -/
def stampLast (c : Chan) (s : State) : State := s.setChan c { s.chan c with last := s.nowMs }

/-- The dispatch on the code (R136). -/
def buttonAction (c : Chan) (code : Nat) (s : State) : Answer :=
  if code = s.cfg.keyEsc then .next (escape c s)
  else if code = s.cfg.keyEnt then enter c s
  else appendDigit c code s

/-- `KEY(c, code, now_ms)`: staleness test, the button's own action, the timestamp, in that order
(R136, R137). -/
def keyButton (c : Chan) (code : Nat) (s : State) : Answer :=
  thenDo (buttonAction c code (dropStale c s)) (stampLast c)

/-- The keypad branch of a closing poll: `KEY(c, v[KEYW-1:0], now_ms)` (R110, R74). -/
def keypadFrame (c : Chan) (v : Nat) (s : State) : Answer := keyButton c (buttonCode s.cfg v) s

/-- `KEY c, code` (R136). -/
def execKey (c : Chan) (code : Nat) (s : State) : Answer := keyButton c code s

/-- `KESC c` (R142). -/
def execKesc (c : Chan) (s : State) : Answer := .next (escape c s)

/-- `KENT c` (R144). -/
def execKent (c : Chan) (s : State) : Answer := enter c s

/-- `KDIGIT c, code` (R146). -/
def execKdigit (c : Chan) (code : Nat) (s : State) : Answer := appendDigit c code s

/-- WKEY (R74): a closed keypad frame of channel `c` with captured value `v` (log 5). -/
def execWkey (c : Chan) (v : Nat) (s : State) : Answer := keypadFrame c v s

end Sys2Proof.Machine
end

