-- ==== Sys2Proof/Machine/Reassembler.lean ====
section
/-! DEFINITION. FrameReassembler (41_frame_reassembler.md): POLL and POLLALL. One POLL is one
indivisible step (R62). -/

namespace Sys2Proof.Machine

/-- Step 4 of R110: the frame is final; its value and count are taken before the channel is reset,
and its length alone says what it is (R113). -/
def closeAndClassify (c : Chan) (s : State) : Answer :=
  let k := s.chan c
  if isCredential k then .next (credentialFrame c (credentialValue k.buf) (closeFrame c s))
  else keypadFrame c k.buf (closeFrame c s)

/-- `POLL(c, now_us, now_ms, FMT)` (R110). -/
def pollChannel (c : Chan) (s : State) : Answer :=
  if (s.chan c).frameOpen && quietOver s.cfg s.nowUs (s.chan c) then closeAndClassify c s
  else .next s

/-- `POLL c` (R110). -/
def execPoll (c : Chan) (s : State) : Answer := pollChannel c s

/-- `POLLALL`: channel 1, then channel 2, with the same clock samples (R116; log 12). -/
def execPollall (s : State) : Answer := andThen (pollChannel .ch1 s) (pollChannel .ch2)

end Sys2Proof.Machine
end

