-- ==== Sys2Proof/Machine/Report.lean ====
section
/-! DEFINITION. Reporter (44_reporter.md): RPTF and RPTP, the text lines of events, and a reader of
those lines. -/

namespace Sys2Proof.Machine

/-- `RPTF(id, ch) = "F" ++ dec(id) ++ "," ++ dec(ch) ++ NL` (R161). -/
def credLine (cfg : Config) (id : Nat) (ch : Chan) : List Byte :=
  0x46 :: decText id ++ 0x2C :: decText (chanNumber ch) ++ cfg.nl

/-- `RPTP(digits, ch) = "P" ++ digits ++ "," ++ dec(ch) ++ NL` (R162). -/
def passLine (cfg : Config) (digits : List Byte) (ch : Chan) : List Byte :=
  0x50 :: digits ++ 0x2C :: decText (chanNumber ch) ++ cfg.nl

/-- "the text line of an event is a function of that event alone" (R160). -/
def eventLine (cfg : Config) : Event → List Byte
  | .cred id ch => credLine cfg id ch
  | .pass digits ch => passLine cfg digits ch

/-- The lines of a run: one per event, in the order of `out` (R160, R165). -/
def State.lines (s : State) : List (List Byte) := s.out.map (eventLine s.cfg)

/-- "The environment can observe exactly two things of the unit: the event log `out` and the two output
lines" (R50); at the end of a trace this is the result of the run (R199). -/
def State.observed (s : State) : List Event × Bool × Bool := (s.out, s.ch1.aux, s.ch2.aux)

/-- Hands a line to whoever applied the reporter (log 2): "pure functions from an event to a byte
string"; "they read and write no unit state" (R82). -/
def returnLine (bytes : List Byte) (s : State) : State := { s with ret := .line bytes }

/-- `RPTF id, ch` (R161): the line of the event the operands name. DESIGN CHOICE (log 19): it does not
look whether that event is in `out`. -/
def execRptf (id : Nat) (ch : Chan) (s : State) : Answer :=
  .next (returnLine (credLine s.cfg id ch) s)

/-- `RPTP digits, ch` (R162): the line of the event the operands name. DESIGN CHOICE (log 19): it does
not look whether that event is in `out`. -/
def execRptp (digits : List Byte) (ch : Chan) (s : State) : Answer :=
  .next (returnLine (passLine s.cfg digits ch) s)

/-- The part of a text before its last comma and the part after it. -/
def splitLastComma : List Byte → Option (List Byte × List Byte)
  | [] => none
  | b :: rest =>
    match splitLastComma rest with
    | some (front, back) => some (b :: front, back)
    | none => if b = 0x2C then some ([], rest) else none

/-- The number a decimal text stands for. -/
def decNumber (text : List Byte) : Nat :=
  text.foldl (fun n b => 10 * n + (b.toNat - 0x30)) 0

/-- Reads a line without its terminator back "by splitting at the last comma" (R162). -/
def readLine (line : List Byte) : Option Event :=
  match line with
  | [] => none
  | tag :: body =>
    match splitLastComma body with
    | some (text, [n]) =>
      let ch : Chan := if n = 0x31 then .ch1 else .ch2
      if tag = 0x46 then some (.cred (decNumber text) ch)
      else if tag = 0x50 then some (.pass text ch)
      else none
    | _ => none

end Sys2Proof.Machine
end

