-- ==== Sys2Proof/Machine/Reset.lean ====
section
/-! DEFINITION. RESET (70_reset_and_hazards.md R195). -/

namespace Sys2Proof.Machine

/-- `RESET()`: every register of both channels and the log. It does not touch FMT or the clocks
(R196), nor what the environment still applies or was handed (log 13). -/
def resetUnit (s : State) : State :=
  { s with ch1 := Channel.reset, ch2 := Channel.reset, out := [] }

/-- `RESET` (R195). -/
def execReset (s : State) : Answer := .next (resetUnit s)

end Sys2Proof.Machine
end

