-- ==== Sys2Proof/Machine/Dispatch.lean ====
section
/-! DEFINITION. One arm per operation of the opcode table. -/

namespace Sys2Proof.Machine

def exec (i : Instr) (s : State) : Host.Outcome State Fault Refusal :=
  match i with
  | .edge0 c => Sys2Proof.Machine.execEdge0 c s
  | .edge1 c => Sys2Proof.Machine.execEdge1 c s
  | .poll c => Sys2Proof.Machine.execPoll c s
  | .pollall => Sys2Proof.Machine.execPollall s
  | .reset => Sys2Proof.Machine.execReset s
  | .dec0 v => Sys2Proof.Machine.execDec0 v s
  | .dec1 v => Sys2Proof.Machine.execDec1 v s
  | .w26 c l id t => Sys2Proof.Machine.execW26 c l id t s
  | .wkey c v => Sys2Proof.Machine.execWkey c v s
  | .key c code => Sys2Proof.Machine.execKey c code s
  | .kesc c => Sys2Proof.Machine.execKesc c s
  | .kent c => Sys2Proof.Machine.execKent c s
  | .kdigit c code => Sys2Proof.Machine.execKdigit c code s
  | .rptf id ch => Sys2Proof.Machine.execRptf id ch s
  | .rptp digits ch => Sys2Proof.Machine.execRptp digits ch s

end Sys2Proof.Machine
end

