-- ==== Sys2Proof/Machine/Fetch.lean ====
section
/-! DEFINITION. How the next operation reaches the unit: the environment applies operations one at a
time (R81), each with its clock samples (R85). -/

namespace Sys2Proof.Machine

/-- The state in which the operation of record `r` runs: the record is taken from the input, its
samples stand at the clock inputs, each "a `TSW`-bit unsigned integer equal to a true time modulo
`2^TSW`" (R13). -/
def applyRecord (r : Record) (rest : List Record) (s : State) : State :=
  { s with
    input := rest
    nowUs := r.nowUs % 2 ^ s.cfg.tsw
    nowMs := r.nowMs % 2 ^ s.cfg.tsw }

/-- The operation a record names. -/
def decodeRecord (cfg : Config) (r : Record) : Except DecodeError Instr :=
  decode cfg r.format r.bytes

/-! ### Placing a word of the opcode table (log 16) -/

/-- The record of a table word (log 4), with the clock inputs as they stand. -/
def tableRecord (s : State) (nbits w : Nat) : Record where
  format := tableFormat nbits w
  bytes := tableBytes s.cfg nbits w
  nowUs := s.nowUs
  nowMs := s.nowMs

/-- The record of a `POLL c` one microsecond after the quiet period of a frame that begins now. -/
def closingPoll (s : State) (c : Chan) : Record where
  format := .opbyte
  bytes := encode s.cfg (.poll c)
  nowUs := s.nowUs + s.cfg.quietPeriodUs + 1
  nowMs := s.nowMs

/-- The count of a keypad frame of `w` bits, 26 apart, which is a credential's (R72): one leading zero
more. -/
def keypadCount (cfg : Config) (w : Nat) : Nat :=
  if w = credentialWidth then w + 1 else min w (2 ^ cfg.cntw - 1)

/-- Channel `c` has received a frame of value `v` and count `n`, and the poll that closes it is the
next operation. -/
def placeFrame (c : Chan) (v : Nat) (n : Nat) (s : State) : State :=
  { s.setChan c { s.chan c with frameOpen := true, buf := v, cnt := n, ts := s.nowUs } with
    input := closingPoll s c :: s.input }

/-- An internal operation is placed as the frame whose closing poll runs it (R82, R110, R136); a
decoder takes channel 1 and its own format. The operations that can be applied by themselves are
placed as their records, not here. -/
def placeInternal (i : Instr) (s : State) : State :=
  match i with
  | .edge0 _ => s
  | .edge1 _ => s
  | .poll _ => s
  | .pollall => s
  | .reset => s
  | .dec0 v => placeFrame .ch1 v.toNat credentialWidth { s with cfg := { s.cfg with fmt := 0 } }
  | .dec1 v => placeFrame .ch1 v.toNat credentialWidth { s with cfg := { s.cfg with fmt := 1 } }
  | .w26 c l id t => placeFrame c (frameValue l id t).toNat credentialWidth s
  | .wkey c v => placeFrame c v (keypadCount s.cfg s.cfg.bufw) s
  | .key c code => placeFrame c code (keypadCount s.cfg s.cfg.keyw) s
  | .kesc c => placeFrame c s.cfg.keyEsc (keypadCount s.cfg s.cfg.keyw) s
  | .kent c => placeFrame c s.cfg.keyEnt (keypadCount s.cfg s.cfg.keyw) s
  | .kdigit c code => placeFrame c code (keypadCount s.cfg s.cfg.keyw) s
  | .rptf _ _ => s
  | .rptp _ _ => s

/-- Places the record of a table word first in the input, or, where the word is an internal
operation's, what makes the next step run it. -/
def placeTableWord (s : State) (nbits w : Nat) : State :=
  let r := tableRecord s nbits w
  match decodeRecord s.cfg r with
  | .error _ => { s with input := r :: s.input }
  | .ok i => if i.schedulable then { s with input := r :: s.input } else placeInternal i s

end Sys2Proof.Machine
end

