-- ==== Sys2Proof/Machine/Step.lean ====
section
/-! DEFINITION. One step: the environment's next operation is applied. -/

namespace Sys2Proof.Machine

/-- Applies the first record of the input. With none left nothing happens: the state "changes only
by the operations" (R9) and the unit "has no halt, stop or wait state" (R199; log 1). A record that
names no operation is refused (R85), and so is one that names an internal operation: those "are not
separately schedulable" (R82) and run inside the POLL that triggers them. DESIGN CHOICE (log 19): a
record of RPTF or RPTP runs on the event it carries, whether or not that event is in `out`. -/
def step (s : State) : Host.Outcome State Fault Refusal :=
  match s.input with
  | [] => .next s
  | r :: rest =>
    match decodeRecord s.cfg r with
    | .error e => .refused (.undecodable e)
    | .ok i => if i.schedulable then exec i (applyRecord r rest s) else .refused (.notSchedulable i)

/-- The state whose very next step runs the operation of a table word. -/
def State.withFetchWord (s : State) (nbits w : Nat) : State := placeTableWord s nbits w

end Sys2Proof.Machine
end

