-- ==== Sys2Proof/Machine/Signals.lean ====
section
/-! DEFINITION. The informative signal-level interface of 30_encoding.md R87 and the trigger edge of
R70: which operations the input strobes stand for, and what the event port shows. "no rule depends
on it" (R87; log 15). -/

namespace Sys2Proof.Machine

/-- Is the change of a data line from `before` to `after` the trigger edge (R17, `EDGE_POL`)? -/
def triggerEdge (cfg : Config) (before after : Bool) : Bool :=
  match cfg.edgePol with
  | .falling => before && !after
  | .rising => !before && after

/-- A trigger edge on the line of bit `b` of channel `c` is `EDGE<b> c`; any other change of the
line is no operation (R70, R174). -/
def lineEvent (cfg : Config) (c : Chan) (b : Bit) (before after : Bool) : Option Instr :=
  if triggerEdge cfg before after then some (if b = 0 then .edge0 c else .edge1 c) else none

/-- The input strobes of one instant (R87). -/
structure Strobes where
  rst : Bool
  d0Ch1 : Bool
  d1Ch1 : Bool
  d0Ch2 : Bool
  d1Ch2 : Bool
  poll1 : Bool
  poll2 : Bool
deriving DecidableEq, Repr

/-- The operations the strobes of one instant stand for. The environment may apply them in any
order (R79, R81); both polls in one instant are POLLALL (R87). -/
def strobeOps (p : Strobes) : List Instr :=
  (if p.rst then [.reset] else []) ++ (if p.d0Ch1 then [.edge0 .ch1] else []) ++
  (if p.d1Ch1 then [.edge1 .ch1] else []) ++ (if p.d0Ch2 then [.edge0 .ch2] else []) ++
  (if p.d1Ch2 then [.edge1 .ch2] else []) ++
  match p.poll1, p.poll2 with
  | true, true => [.pollall]
  | true, false => [.poll .ch1]
  | false, true => [.poll .ch2]
  | false, false => []

/-- What the event port shows while `ev_valid` is strobed for one event (R87); `none` where the
kind of the event gives the port no value. -/
structure EventPort where
  /-- `ev_kind`: 0 = CRED, 1 = PASS. -/
  kind : Bit
  /-- `ev_ch`: 0 = channel 1, 1 = channel 2. -/
  ch : Bit
  /-- `ev_id[IDW-1:0]`. -/
  id : Option Nat
  /-- `ev_len[LENW-1:0]`. -/
  len : Option Nat
  /-- `ev_dig[0..PCAP-1]`, the cells below `ev_len`. -/
  dig : List Byte
deriving DecidableEq, Repr

/-- The channel bit of the event port. -/
def chanBit : Chan → Bit
  | .ch1 => 0
  | .ch2 => 1

/-- The event port for an event. -/
def eventPort (cfg : Config) : Event → EventPort
  | .cred id ch => ⟨0, chanBit ch, some id, none, []⟩
  | .pass digits ch => ⟨1, chanBit ch, none, some (digits.length % 2 ^ cfg.lenw), digits⟩

end Sys2Proof.Machine
end

