-- ==== Sys2Proof/Machine/Trace.lean ====
section
/-! DEFINITION. The trace notation (30_encoding.md R83 to R85): records of operations, and the
pseudo-operations FRAME, KEYPRESS and CARD with their expansion. It claims nothing of the unit. -/

namespace Sys2Proof.Machine

/-- A trace record: "the triple (operation byte, `now_us`, `now_ms`)" (R85). -/
def traceRecord (b : Byte) (nowUs nowMs : Nat) : Record where
  format := .opbyte
  bytes := [b]
  nowUs := nowUs
  nowMs := nowMs

/-- A line `@<now_us>,<now_ms> OP` of R83, decimal samples. -/
def traceLine (cfg : Config) (nowUs nowMs : Nat) (i : Instr) : Record where
  format := i.format
  bytes := encode cfg i
  nowUs := nowUs
  nowMs := nowMs

/-- The edge that transmits one bit (R70). -/
def edgeOf (c : Chan) (b : Bit) : Instr := if b = 0 then .edge0 c else .edge1 c

/-- `FRAME c, b0 ... b(n-1), t0, dt`: line `k` at `t0 + k*dt`, `now_ms` its floor in
milliseconds (R84). -/
def frameTrace (cfg : Config) (c : Chan) : List Bit → Nat → Nat → List Record
  | [], _, _ => []
  | b :: bs, t0, dt => traceLine cfg t0 (t0 / 1000) (edgeOf c b) :: frameTrace cfg c bs (t0 + dt) dt

/-- The `n` low bits of a value, most significant first. -/
def bitsMsbFirst (v : Nat) : Nat → List Bit
  | 0 => []
  | n + 1 => BitVec.ofBool (v.testBit n) :: bitsMsbFirst v n

/-- `KEYPRESS c, code, t0, dt`: "the `KEYW` bits of code" (R84). -/
def keypressTrace (cfg : Config) (c : Chan) (code : Nat) (t0 dt : Nat) : List Record :=
  frameTrace cfg c (bitsMsbFirst code cfg.keyw) t0 dt

/-- `CARD c, L, id, T, t0, dt` (R84). -/
def cardTrace (cfg : Config) (c : Chan) (l : Bit) (id : Payload) (t : Bit) (t0 dt : Nat) :
    List Record :=
  frameTrace cfg c (l :: bitsMsbFirst id.toNat 24 ++ [t]) t0 dt

/-- The state whose input is a trace: "the end of the trace the environment chose" ends the run
(R199). -/
def State.load (s : State) (trace : List Record) : State := { s with input := trace }

end Sys2Proof.Machine
end

