-- ==== Sys2Proof/Safety.lean ====
section
/-! DEFINITION. What claims about the unit are stated in: the invariant of the reachable states, the
outcome of an operation, and a run of several operations. -/

namespace Sys2Proof.Machine

/-- The invariant of one channel: R26 (i) to (iii), the widths of R20, R31, the digit store's form
and bounds (R51), and the characters a passcode can hold (R162). -/
structure Channel.Inv (cfg : Config) (k : Channel) : Prop where
  idle_buf : k.frameOpen = false → k.buf = 0
  idle_cnt : k.frameOpen = false → k.cnt = 0
  open_cnt : k.frameOpen = true → 1 ≤ k.cnt
  buf_lt_count : k.cnt < 2 ^ cfg.cntw - 1 → k.cnt ≤ cfg.bufw → k.buf < 2 ^ k.cnt
  buf_lt : k.buf < 2 ^ cfg.bufw
  cnt_lt : k.cnt < 2 ^ cfg.cntw
  ts_lt : k.ts < 2 ^ cfg.tsw
  last_lt : k.last < 2 ^ cfg.tsw
  dig_wf : Memory.wf k.dig = true
  dig_below : Memory.below cfg.pcap k.dig = true
  len_le : k.len ≤ cfg.pcap
  digits : ∀ i, i < k.len → isDigitChar cfg (Memory.read k.dig i) = true

/-- What an event of the log satisfies: an id has `IDW` bits (R12), under format 1 it has 24 (R128), a
passcode is a digit string (R12, R162). -/
def Event.Wf (cfg : Config) : Event → Prop
  | .cred id _ => id < 2 ^ cfg.idw ∧ (cfg.fmt = 1 → id < 2 ^ 24)
  | .pass digits _ => isDigitString cfg digits = true

/-- The invariant of the machine. -/
structure State.Inv (s : State) : Prop where
  cfg : s.cfg.Wf
  ch1 : s.ch1.Inv s.cfg
  ch2 : s.ch2.Inv s.cfg
  nowUs_lt : s.nowUs < 2 ^ s.cfg.tsw
  nowMs_lt : s.nowMs < 2 ^ s.cfg.tsw
  out : ∀ e ∈ s.out, e.Wf s.cfg

/-- The next state of an answer, if it is one. -/
def nextState : Answer → Option State
  | .next s => some s
  | .fault _ => none
  | .refused _ => none

/-- `n` steps; stops at the first that has no next state. -/
def run : Nat → State → Answer
  | 0, s => .next s
  | n + 1, s => andThen (step s) (run n)

/-- Consecutive digits of one channel, each applied to the state the one before it leaves. -/
def pressAll (c : Chan) : List Nat → State → Answer
  | [], s => .next s
  | code :: codes, s => andThen (exec (.kdigit c code) s) (pressAll c codes)

/-- The operation of the projection to channel `c` that stands for `i` (R190: "with `POLLALL`
counted as a `POLL c`"); RESET, which addresses both channels, is kept (log 18). -/
def projOp (c : Chan) : Instr → Option Instr
  | .edge0 d => if d = c then some (.edge0 d) else none
  | .edge1 d => if d = c then some (.edge1 d) else none
  | .poll d => if d = c then some (.poll d) else none
  | .pollall => some (.poll c)
  | .reset => some .reset
  | .dec0 v => some (.dec0 v)
  | .dec1 v => some (.dec1 v)
  | .w26 d l id t => if d = c then some (.w26 d l id t) else none
  | .wkey d v => if d = c then some (.wkey d v) else none
  | .key d code => if d = c then some (.key d code) else none
  | .kesc d => if d = c then some (.kesc d) else none
  | .kent d => if d = c then some (.kent d) else none
  | .kdigit d code => if d = c then some (.kdigit d code) else none
  | .rptf id ch => some (.rptf id ch)
  | .rptp digits ch => some (.rptp digits ch)

/-- An operation with the clock samples it is applied with. -/
structure Applied where
  op : Instr
  nowUs : Nat
  nowMs : Nat
deriving DecidableEq, Repr

/-- The record of an applied operation. -/
def Applied.record (cfg : Config) (a : Applied) : Record where
  format := a.op.format
  bytes := encode cfg a.op
  nowUs := a.nowUs
  nowMs := a.nowMs

/-- `proj_c` of a sequence of operations (R190). -/
def projTrace (c : Chan) (trace : List Applied) : List Applied :=
  trace.filterMap fun a => (projOp c a.op).map fun i => { a with op := i }

/-- The events of one channel. -/
def eventsOf (c : Chan) (out : List Event) : List Event := out.filter fun e => e.chan == c

end Sys2Proof.Machine
end

