-- ==== Sys2Proof/Certificates/Slice0/Obligations.lean ====
section
/-! DEFINITION. The statements about the capture unit. Where a statement names a value or a shape
that the spec leaves to the model, its docstring names the log entry. -/

open Sys2Proof Sys2Proof.Machine

/-! ### Encodings -/

/-- R85: a trace record is an operation byte and two clock samples; the eight defined bytes name
their operations, and "Every other byte value is reserved": it is refused by name and nothing
runs. -/
def Obligations.OperationByteNamesEightOperations : Prop :=
  ∀ (cfg : Config) (b : Byte) (us ms : Nat),
    traceRecord b us ms = ⟨.opbyte, [b], us, ms⟩ ∧
    decodeRecord cfg (traceRecord b us ms) =
      (if b = 0x10 then .ok (.edge0 .ch1) else if b = 0x11 then .ok (.edge1 .ch1)
      else if b = 0x12 then .ok (.edge0 .ch2) else if b = 0x13 then .ok (.edge1 .ch2)
      else if b = 0x20 then .ok (.poll .ch1) else if b = 0x22 then .ok (.poll .ch2)
      else if b = 0x30 then .ok .pollall else if b = 0xF0 then .ok .reset
      else .error (.reservedOpByte b)) ∧
    ∀ (s : State) (rest : List Record), s.input = traceRecord b us ms :: rest →
      b ∉ [0x10, 0x11, 0x12, 0x13, 0x20, 0x22, 0x30, 0xF0] →
      step s = .refused (.undecodable (.reservedOpByte b))

/-- R78: the formats are 0 and 1, the configuration input can hold no other, and a record of the
decoder's format with another selector is refused by name. The bytes behind the selector are the
model's layout (log 3). -/
def Obligations.OnlyDecodeFormatsZeroAndOne : Prop :=
  (∀ cfg : Config, cfg.fmt = 0 ∨ cfg.fmt = 1) ∧
  (∀ (cfg : Config) (v : RawFrame),
    decode cfg .fmt (0 :: valueBytes 26 v.toNat) = .ok (.dec0 v) ∧
    decode cfg .fmt (1 :: valueBytes 26 v.toNat) = .ok (.dec1 v)) ∧
  ∀ (s : State) (rest : List Record) (sel : Byte) (operand : List Byte) (us ms : Nat),
    s.input = ⟨.fmt, sel :: operand, us, ms⟩ :: rest → 2 ≤ sel.toNat →
    step s = .refused (.undecodable (.reservedFormat sel))

/-- The decoder reads every well-formed operation of every format back from its encoding, with every
operand, at every admissible value of the parameters. The layout of the operand bytes is the
model's (log 3). -/
def Obligations.DecodeReadsBackEncode : Prop :=
  ∀ (cfg : Config) (i : Instr), cfg.Wf → i.wellFormed cfg = true →
    decode cfg i.format (encode cfg i) = .ok i

/-- What the decoder accepts is a well-formed operation of that format whose encoding is exactly the
bytes read: no bit is ignored and each operation has one encoding (log 3). -/
def Obligations.EncodeRestoresDecodedBytes : Prop :=
  ∀ (cfg : Config) (f : Format) (bytes : List Byte) (i : Instr), cfg.Wf →
    decode cfg f bytes = .ok i →
    i.wellFormed cfg = true ∧ i.format = f ∧ encode cfg i = bytes

/-- One record of each format, decoded. The operation bytes 0x13 and 0x22 are R85's encoding. Of the
other records the bytes that carry operands (order, length, channel byte, selector, tag first) are
the model's layout (log 3, DESIGN CHOICE): R161 and R162 say "Encoding: none". The values in them are
the spec's: format 1 by R36, the frame 0x3579BDE of R73's fields (L = 1, id = 0xABCDEF, T = 0), R75's
codes, the first characters 'F' and 'P' of the two lines. -/
def Obligations.SpecWordsDecode : Prop :=
  decode Config.default .opbyte [0x13] = .ok (.edge1 .ch2) ∧
  decode Config.default .opbyte [0x22] = .ok (.poll .ch2) ∧
  decode Config.default .fmt [0x01, 0x0B, 0, 0, 0] = .ok (.dec1 11) ∧
  decode Config.default .frame26 [0xDE, 0x9B, 0x57, 0x03, 0] = .ok (.w26 .ch1 1 0xABCDEF 0) ∧
  decode Config.default .framekey [0x17, 0, 0, 0, 0] = .ok (.wkey .ch1 0x17) ∧
  decode Config.default .internal [0x07, 1] = .ok (.key .ch2 7) ∧
  decode Config.default .button [0x0A, 0] = .ok (.kesc .ch1) ∧
  decode Config.default .button [0x0B, 1] = .ok (.kent .ch2) ∧
  decode Config.default .button [0x0C, 0] = .ok (.kdigit .ch1 12) ∧
  decode Config.default .line [0x46, 0, 5, 0, 0, 0] = .ok (.rptf 5 .ch1) ∧
  decode Config.default .line [0x50, 1, 0x31, 0x32, 0x33] =
    .ok (.rptp [0x31, 0x32, 0x33] .ch2)

/-! ### A step -/

/-- A step applies the operation the first record names, where that operation is one of the
environment's or one of the reporter's two functions: the record leaves the input, its samples stand
at the clock inputs at the clocks' width, and the operation runs. A record of an internal operation
is refused: those "are not separately schedulable" (R82). A record that names none is refused. Two
clauses are the model's choice: with nothing left to apply the state stays (log 1), and a reporter
record runs whether or not its event is in `out` (log 19). -/
def Obligations.StepAppliesDecodedOperation : Prop :=
  ∀ s : State,
    (s.input = [] → step s = .next s) ∧
    ∀ (r : Record) (rest : List Record), s.input = r :: rest →
      (∀ i, decode s.cfg r.format r.bytes = .ok i → i.format = .opbyte ∨ i.format = .line →
        step s = exec i { s with
          input := rest
          nowUs := r.nowUs % 2 ^ s.cfg.tsw
          nowMs := r.nowMs % 2 ^ s.cfg.tsw }) ∧
      (∀ i, decode s.cfg r.format r.bytes = .ok i → i.format ≠ .opbyte → i.format ≠ .line →
        step s = .refused (.notSchedulable i)) ∧
      (∀ e, decode s.cfg r.format r.bytes = .error e → step s = .refused (.undecodable e))

/-! ### BitCapture -/

/-- R100, R102, R103: an edge opens an idle channel with the sampled time, then appends its bit
modulo `2^BUFW` and counts it up to `2^CNTW - 1`; it completes in every state. -/
def Obligations.EdgeAppendsOneBit : Prop :=
  ∀ (cfg : Config) (c : Chan) (s : State),
    let k := s.chan c
    let old := if k.frameOpen then k.buf else 0
    let n := if k.frameOpen then k.cnt else 0
    let after := fun (b : Nat) => s.setChan c { k with
      frameOpen := true
      buf := (2 * old + b) % 2 ^ s.cfg.bufw
      cnt := if n < 2 ^ s.cfg.cntw - 1 then n + 1 else n
      ts := if k.frameOpen then k.ts else s.nowUs }
    exec (.edge0 c) s = .next (after 0) ∧ exec (.edge1 c) s = .next (after 1) ∧
    encode cfg (.edge0 c) = [match c with | .ch1 => 0x10 | .ch2 => 0x12] ∧
    encode cfg (.edge1 c) = [match c with | .ch1 => 0x11 | .ch2 => 0x13]

/-- R105, the frame of EDGE0 and EDGE1: nothing but `buf`, `cnt`, `open` and, when opening, `ts` of
the addressed channel is written; every digit cell of both channels reads as before. -/
def Obligations.EdgeWritesFourRegistersOnly : Prop :=
  ∀ (c : Chan) (i : Instr) (s t : State), i = .edge0 c ∨ i = .edge1 c → exec i s = .next t →
    (∀ d, d ≠ c → t.chan d = s.chan d) ∧
    (∀ d a, Memory.read (t.chan d).dig a = Memory.read (s.chan d).dig a) ∧
    (t.chan c).dig = (s.chan c).dig ∧ (t.chan c).len = (s.chan c).len ∧
    (t.chan c).last = (s.chan c).last ∧ (t.chan c).aux = (s.chan c).aux ∧
    ((s.chan c).frameOpen = true → (t.chan c).ts = (s.chan c).ts) ∧
    t.out = s.out ∧ t.cfg = s.cfg ∧ t.nowUs = s.nowUs ∧ t.nowMs = s.nowMs ∧
    t.input = s.input ∧ t.ret = s.ret

/-- R101, which the spec marks as derived from R100: the edges `b_0, ..., b_(n-1)` on an idle
channel, with no poll between them, leave the channel open with count `min(n, 2^CNTW - 1)`, the
first edge's time, and the bits most significant first in the shift register. -/
def Obligations.EdgesShiftInMostSignificantFirst : Prop :=
  ∀ (c : Chan) (edges : List (Bit × Nat × Nat)) (s : State) (rest : List Record)
    (hn : 0 < edges.length),
    (s.chan c).frameOpen = false →
    s.input = edges.map (fun e => traceRecord (opByte 0b0001 c e.1) e.2.1 e.2.2) ++ rest →
    ∃ t, run edges.length s = .next t ∧ t.input = rest ∧ t.out = s.out ∧
      (t.chan c).frameOpen = true ∧
      (t.chan c).cnt = min edges.length (2 ^ s.cfg.cntw - 1) ∧
      (t.chan c).ts = edges[0].2.1 % 2 ^ s.cfg.tsw ∧
      (t.chan c).buf = (∑ k : Fin edges.length,
        edges[k].1.toNat * 2 ^ (edges.length - 1 - k.val)) % 2 ^ s.cfg.bufw ∧
      (edges.length ≤ s.cfg.bufw → ∀ k : Fin edges.length,
        (t.chan c).buf.testBit (edges.length - 1 - k.val) = (edges[k].1 == 1))

/-- R107, which the spec marks as derived from R105: for any interleaving of edges on the two
channels, the registers of a channel are what the edges of that channel alone would have left. -/
def Obligations.InterleavedEdgesStayOnTheirChannel : Prop :=
  ∀ (c : Chan) (edges : List (Chan × Bit × Nat × Nat)) (s : State),
    let records := fun (es : List (Chan × Bit × Nat × Nat)) =>
      es.map fun e => traceRecord (opByte 0b0001 e.1 e.2.1) e.2.2.1 e.2.2.2
    let own := edges.filter fun e => e.1 == c
    ∃ t u, run edges.length (s.load (records edges)) = .next t ∧
      run own.length (s.load (records own)) = .next u ∧ t.chan c = u.chan c

/-! ### FrameReassembler -/

/-- R115, which the spec marks as derived from R110: a poll of an idle channel, or of an open one
whose quiet period is not over, changes nothing and emits nothing, however often it is repeated. -/
def Obligations.PollBeforeDeadlineDoesNothing : Prop :=
  ∀ (c : Chan) (s : State),
    ((s.chan c).frameOpen = false ∨
      elapsed s.cfg s.nowUs (s.chan c).ts ≤ s.cfg.quietPeriodUs → exec (.poll c) s = .next s) ∧
    ∀ (samples : List (Nat × Nat)) (rest : List Record),
      s.input = samples.map (fun p => traceRecord (opByte 0b0010 c 0) p.1 p.2) ++ rest →
      (∀ p ∈ samples, (s.chan c).frameOpen = false ∨
        elapsed s.cfg (p.1 % 2 ^ s.cfg.tsw) (s.chan c).ts ≤ s.cfg.quietPeriodUs) →
      ∃ t, run samples.length s = .next t ∧ t.ch1 = s.ch1 ∧ t.ch2 = s.ch2 ∧ t.out = s.out ∧
        t.cfg = s.cfg ∧ t.input = rest

/-- R110, for every admissible setting of the parameters: the whole of one poll. The frame is final
strictly after `QUIET_PERIOD_US`; its value and count are taken, the channel is reset, and the count
alone chooses between the credential event and the button. At most one event is emitted. -/
def Obligations.PollClosesAndClassifies : Prop :=
  ∀ (c : Chan) (s : State), s.cfg.Wf →
    let k := s.chan c
    let closed := s.setChan c { k with buf := 0, cnt := 0, frameOpen := false }
    let id := if s.cfg.fmt = 0 then k.buf % 2 ^ 26 else k.buf / 2 % 2 ^ 24
    exec (.poll c) s =
      (if k.frameOpen = false then .next s
      else if elapsed s.cfg s.nowUs k.ts ≤ s.cfg.quietPeriodUs then .next s
      else if k.cnt = 26 then .next { closed with out := s.out ++ [.cred id c] }
      else exec (.key c (k.buf % 2 ^ s.cfg.keyw)) closed) ∧
    (∀ t, exec (.poll c) s = .next t → t.out = s.out ∨ ∃ e, t.out = s.out ++ [e]) ∧
    encode s.cfg (.poll c) = [match c with | .ch1 => 0x20 | .ch2 => 0x22]

/-- R111, R112, R117 in true time: with the first bit at `T0` and the poll at `t`, less than `2^TSW`
microseconds later, the poll completes and leaves the frame open exactly when
`t - T0 <= QUIET_PERIOD_US`, whatever the clocks' wrap-around. -/
def Obligations.QuietPeriodInTrueTime : Prop :=
  ∀ (c : Chan) (s : State) (T0 t : Nat), s.Inv → (s.chan c).frameOpen = true →
    (s.chan c).ts = T0 % 2 ^ s.cfg.tsw → s.nowUs = t % 2 ^ s.cfg.tsw → T0 ≤ t →
    t - T0 < 2 ^ s.cfg.tsw →
    ∃ s', exec (.poll c) s = .next s' ∧
      ((s'.chan c).frameOpen = true ↔ t - T0 ≤ s.cfg.quietPeriodUs) ∧
      (t - T0 ≤ s.cfg.quietPeriodUs → s' = s)

/-- R131: "exactly one `CRED` event per closed 26-bit frame, and none for any other frame". -/
def Obligations.OneCredentialPerClosedCredentialFrame : Prop :=
  ∀ (c : Chan) (s t : State), exec (.poll c) s = .next t →
    (((s.chan c).frameOpen = true ∧ s.cfg.quietPeriodUs < elapsed s.cfg s.nowUs (s.chan c).ts ∧
        (s.chan c).cnt = 26) ↔ ∃ id, t.out = s.out ++ [.cred id c]) ∧
    (∀ id d, .cred id d ∈ t.out.drop s.out.length → d = c ∧ t.out = s.out ++ [.cred id c])

/-- R116: from every state that meets the invariant, POLL 1 and then POLL 2 complete with the same
samples, POLLALL is the two in that order, and channel 1's event, if any, comes first. -/
def Obligations.PollallIsPollOneThenPollTwo : Prop :=
  ∀ s : State, s.Inv → ∃ t1 t2, exec (.poll .ch1) s = .next t1 ∧ exec (.poll .ch2) t1 = .next t2 ∧
    exec .pollall s = .next t2 ∧ t1.nowUs = s.nowUs ∧ t1.nowMs = s.nowMs ∧
    (∃ e1 e2, t1.out = s.out ++ e1 ∧ t2.out = s.out ++ e1 ++ e2 ∧ e1.length ≤ 1 ∧ e2.length ≤ 1 ∧
      (∀ e ∈ e1, e.chan = .ch1) ∧ (∀ e ∈ e2, e.chan = .ch2)) ∧
    encode s.cfg .pollall = [0x30]

/-- The frame of POLL (R114, R139): the other channel, `ts[c]`, the parameters and the inputs stay;
a poll that does not close changes nothing; a closing poll clears `buf`, `cnt` and `open`; a closed
credential frame leaves the session and `aux` alone; a closed control button writes no digit cell, a
closed button other than ENTER neither emits nor writes `aux`; a closed digit writes no cell but the
one it goes to, at the index computed from the session that staleness leaves. -/
def Obligations.PollFrame : Prop :=
  ∀ (c : Chan) (s t : State), exec (.poll c) s = .next t →
    let k := s.chan c
    let closes := k.frameOpen = true ∧ s.cfg.quietPeriodUs < elapsed s.cfg s.nowUs k.ts
    (∀ d, d ≠ c → t.chan d = s.chan d) ∧ (t.chan c).ts = k.ts ∧ t.cfg = s.cfg ∧
    t.nowUs = s.nowUs ∧ t.nowMs = s.nowMs ∧ t.input = s.input ∧ t.ret = s.ret ∧
    (¬ closes → t = s) ∧
    (closes → (t.chan c).buf = 0 ∧ (t.chan c).cnt = 0 ∧ (t.chan c).frameOpen = false) ∧
    (closes → k.cnt = 26 → (t.chan c).dig = k.dig ∧ (t.chan c).len = k.len ∧
      (t.chan c).last = k.last ∧ (t.chan c).aux = k.aux) ∧
    (closes → k.cnt ≠ 26 →
      (k.buf % 2 ^ s.cfg.keyw = s.cfg.keyEsc ∨ k.buf % 2 ^ s.cfg.keyw = s.cfg.keyEnt →
        (t.chan c).dig = k.dig) ∧
      (k.buf % 2 ^ s.cfg.keyw = s.cfg.keyEsc ∨ k.buf % 2 ^ s.cfg.keyw ≠ s.cfg.keyEnt →
        t.out = s.out ∧ (t.chan c).aux = k.aux)) ∧
    (Memory.wf k.dig = true → ∀ a,
      a ≠ writeIndex s.cfg ((dropStale c s).chan c).len →
      Memory.read (t.chan c).dig a = Memory.read k.dig a)

/-- The frame of POLLALL (R116, R114, R115, R139, R142, R144, R146): the parameters, the inputs and
each `ts[c]` stay. For each channel: a frame that is not final stays with the session and `aux`; a
final one is cleared; a final credential frame leaves the session and `aux` alone; a final control
button writes no digit cell, a final button other than ENTER does not write `aux` and adds no `PASS`
of the channel; and no digit cell changes but the one a digit goes to, at the index computed from
that channel's session as staleness leaves it. -/
def Obligations.PollallFrame : Prop :=
  ∀ (s t : State), exec .pollall s = .next t →
    t.cfg = s.cfg ∧ t.nowUs = s.nowUs ∧ t.nowMs = s.nowMs ∧ t.input = s.input ∧ t.ret = s.ret ∧
    ∀ c : Chan,
      let k := s.chan c
      let closes := k.frameOpen = true ∧ s.cfg.quietPeriodUs < elapsed s.cfg s.nowUs k.ts
      (t.chan c).ts = k.ts ∧ (¬ closes → t.chan c = k) ∧
      (closes → (t.chan c).buf = 0 ∧ (t.chan c).cnt = 0 ∧ (t.chan c).frameOpen = false) ∧
      (closes → k.cnt = 26 → (t.chan c).dig = k.dig ∧ (t.chan c).len = k.len ∧
        (t.chan c).last = k.last ∧ (t.chan c).aux = k.aux) ∧
      (closes → k.cnt ≠ 26 →
        (k.buf % 2 ^ s.cfg.keyw = s.cfg.keyEsc ∨ k.buf % 2 ^ s.cfg.keyw = s.cfg.keyEnt →
          (t.chan c).dig = k.dig) ∧
        (k.buf % 2 ^ s.cfg.keyw = s.cfg.keyEsc ∨ k.buf % 2 ^ s.cfg.keyw ≠ s.cfg.keyEnt →
          (t.chan c).aux = k.aux ∧ eventsOf c t.out = eventsOf c s.out)) ∧
      (Memory.wf k.dig = true → ∀ a, a ≠ writeIndex s.cfg ((dropStale c s).chan c).len →
        Memory.read (t.chan c).dig a = Memory.read k.dig a)

/-- R64, which the spec marks as derived from R62 and R100: an edge and a closing poll of one
channel at the same instant. Poll first: the bit opens the next frame. Edge first: the bit is the
last of the frame the poll classifies and can change what it is: with 25 bits before it the frame is
the credential that ends in the bit, with any other count it is the button in the low bits of the
frame that ends in the bit. Neither loses it or counts it twice. -/
def Obligations.EdgeAndPollAtOnceLoseNoBit : Prop :=
  ∀ (c : Chan) (b : Bit) (s : State), s.Inv → (s.chan c).frameOpen = true →
    s.cfg.quietPeriodUs < elapsed s.cfg s.nowUs (s.chan c).ts →
    let k := s.chan c
    let closed := s.setChan c { k with buf := 0, cnt := 0, frameOpen := false }
    (∃ t, andThen (exec (.poll c) s) (exec (edgeOf c b)) = .next t ∧
      (t.chan c).frameOpen = true ∧ (t.chan c).cnt = 1 ∧ (t.chan c).buf = b.toNat ∧
      (t.chan c).ts = s.nowUs) ∧
    ∃ u, andThen (exec (edgeOf c b) s) (exec (.poll c)) = .next u ∧
      (u.chan c).frameOpen = false ∧ (u.chan c).cnt = 0 ∧ (u.chan c).buf = 0 ∧
      (k.cnt = 25 → u = { closed with out := s.out ++
        [.cred (if s.cfg.fmt = 0 then 2 * k.buf + b.toNat else k.buf % 2 ^ 24) c] }) ∧
      (k.cnt ≠ 25 → exec (.key c ((2 * k.buf + b.toNat) % 2 ^ s.cfg.keyw)) closed = .next u ∧
        ∀ id, u.out ≠ s.out ++ [.cred id c])

/-! ### CredentialDecoder -/

/-- R127, for every admissible setting of the parameters: DEC0 answers its operand (in `ret`, log 2);
R131: it writes no state of the unit. -/
def Obligations.DecZeroPassesThrough : Prop :=
  ∀ (v : RawFrame) (s : State), s.cfg.Wf →
    exec (.dec0 v) s = .next { s with ret := .id v.toNat }

/-- R128, for every admissible setting of the parameters: DEC1 (result in `ret`, log 2) clears the
leading parity bit and shifts out the trailing one; the result is bits 24:1 and lies in
`[0, 2^24 - 1]`; it writes no state of the unit (R131). -/
def Obligations.DecOneStripsParity : Prop :=
  ∀ (v : RawFrame) (s : State), s.cfg.Wf → ∃ id : Nat,
    exec (.dec1 v) s = .next { s with ret := .id id } ∧
    id = ((v &&& ~~~((1 : RawFrame) <<< 25)) >>> 1).toNat ∧
    id = (v.extractLsb' 1 24).toNat ∧ id ≤ 2 ^ 24 - 1

/-- R130, which the spec marks as derived from R128: the credential round trip, for all parity bits
and all 24-bit ids. -/
def Obligations.CredentialRoundTrip : Prop :=
  ∀ (L id T : Nat) (s : State), s.cfg.Wf → L ≤ 1 → T ≤ 1 → id < 2 ^ 24 →
    exec (.dec1 (BitVec.ofNat 26 ((L <<< 25) ||| (id <<< 1) ||| T))) s =
      .next { s with ret := .id id }

/-- A W26 frame is reported with the format in force (R73, R110, R126), the whole value
`(L << 25) | (id << 1) | T` under format 0, for every admissible setting of the parameters. That W26
taken by itself is this branch of the poll is the model's reading (log 5). -/
def Obligations.CredentialFrameIsReported : Prop :=
  ∀ (c : Chan) (l : Bit) (id : Payload) (t : Bit) (s : State), s.cfg.Wf →
    exec (.w26 c l id t) s = .next { s with out := s.out ++ [.cred
      (if s.cfg.fmt = 0 then (l.toNat <<< 25) ||| (id.toNat <<< 1) ||| t.toNat else id.toNat) c] }

/-- R129: under format 1 the two parity bits of a 26-bit frame influence nothing: closing a frame
that differs only in bits 25 and 0 leaves the same state. Under format 0 they are part of the
reported number. -/
def Obligations.ParityBitsInfluenceNothing : Prop :=
  ∀ (c : Chan) (s : State) (buf : Nat), s.cfg.Wf → (s.chan c).frameOpen = true →
    s.cfg.quietPeriodUs < elapsed s.cfg s.nowUs (s.chan c).ts → (s.chan c).cnt = 26 →
    let s' := s.setChan c { s.chan c with buf := buf }
    (s.cfg.fmt = 1 → buf / 2 % 2 ^ 24 = (s.chan c).buf / 2 % 2 ^ 24 →
      ∃ t, exec (.poll c) s = .next t ∧ exec (.poll c) s' = .next t) ∧
    (s.cfg.fmt = 0 → ∃ t t', exec (.poll c) s = .next t ∧ exec (.poll c) s' = .next t' ∧
      t.out = s.out ++ [.cred ((s.chan c).buf % 2 ^ 26) c] ∧
      t'.out = s.out ++ [.cred (buf % 2 ^ 26) c])

/-! ### Keypad -/

/-- R136, R137, R138: staleness test, the button's own action, the timestamp, in that order, for
every code; from every state that meets the invariant the action completes, and KEY with it. -/
def Obligations.KeyTestsActsStamps : Prop :=
  ∀ (c : Chan) (code : Nat) (s : State),
    let k := s.chan c
    let s1 := if k.len ≠ 0 ∧ s.cfg.buttonTimeoutMs < elapsed s.cfg s.nowMs k.last
      then s.setChan c { k with len := 0 } else s
    let action := if code = s.cfg.keyEsc then exec (.kesc c) s1
      else if code = s.cfg.keyEnt then exec (.kent c) s1 else exec (.kdigit c code) s1
    (∀ t, action = .next t →
      exec (.key c code) s = .next (t.setChan c { t.chan c with last := s.nowMs })) ∧
    (s.Inv → ∃ t, action = .next t)

/-- R142: ESCAPE empties the session and does nothing else, in every state. -/
def Obligations.EscapeEmptiesSession : Prop :=
  ∀ (c : Chan) (s : State),
    exec (.kesc c) s = .next (s.setChan c { s.chan c with len := 0 }) ∧
    Config.default.keyEsc = 0b1010

/-- R144, R145: ENTER emits the passcode, sets `aux[c]` by its first character, empties the session,
and leaves everything else, whenever the session lies in the digit store. -/
def Obligations.EnterSubmitsPasscode : Prop :=
  ∀ (c : Chan) (s : State), (s.chan c).len ≤ s.cfg.pcap →
    let k := s.chan c
    let digits := (List.range k.len).map fun i => Memory.read k.dig i
    exec (.kent c) s = .next (State.setChan { s with out := s.out ++ [.pass digits c] } c
      { k with aux := decide (1 ≤ k.len ∧ Memory.read k.dig 0 = 0x38), len := 0 }) ∧
    Config.default.keyEnt = 0b1011

/-- R146: any other button writes `chr(code + 0x30)` at `len[c]`, or at 1 where the session is full,
and makes `len[c]` one more than that index. The store changes in that one cell; everything else of
the machine stays. -/
def Obligations.DigitAppendsOrWraps : Prop :=
  ∀ (c : Chan) (code : Nat) (s : State), s.cfg.Wf → Memory.wf (s.chan c).dig = true →
    let k := s.chan c
    let index := if s.cfg.pcap ≤ k.len then 1 else k.len
    ∃ dig, exec (.kdigit c code) s =
        .next (s.setChan c { k with dig := dig, len := index + 1 }) ∧
      index < s.cfg.pcap ∧ index + 1 < 2 ^ s.cfg.lenw ∧ Memory.wf dig = true ∧
      ∀ a, Memory.read dig a =
        if a = index then BitVec.ofNat 8 (code + 0x30) else Memory.read k.dig a

/-- A WKEY frame is the button of its low `KEYW` bits, whatever the bits above (R74), and completes
from every state that meets the invariant. That WKEY taken by itself is this branch of the poll is
the model's reading (log 5). -/
def Obligations.KeypadFrameIsItsLowBits : Prop :=
  ∀ (c : Chan) (v : Nat) (s : State),
    exec (.wkey c v) s = exec (.key c (v % 2 ^ s.cfg.keyw)) s ∧
    (s.Inv → ∃ t, exec (.wkey c v) s = .next t ∧ (t.chan c).last = s.nowMs)

/-- R150: every button completes from every state that meets the invariant and leaves
`last[c] = now_ms`, the button that found the session stale included. -/
def Obligations.EveryButtonStampsLast : Prop :=
  ∀ (c : Chan) (code : Nat) (s : State), s.Inv →
    ∃ t, exec (.key c code) s = .next t ∧ (t.chan c).last = s.nowMs

/-- The frame of KEY and WKEY (R136, R65, R190): the other channel, the channel registers of R21,
the parameters and the inputs stay; no digit cell changes but the one a digit goes to, at the index
computed from the session that staleness leaves; a control button changes none. -/
def Obligations.ButtonFrame : Prop :=
  ∀ (c : Chan) (code : Nat) (i : Instr) (s t : State),
    i = .key c code ∨ (∃ v : Nat, i = .wkey c v ∧ v % 2 ^ s.cfg.keyw = code) →
    exec i s = .next t → Memory.wf (s.chan c).dig = true →
    (∀ d, d ≠ c → t.chan d = s.chan d) ∧
    (t.chan c).buf = (s.chan c).buf ∧ (t.chan c).cnt = (s.chan c).cnt ∧
    (t.chan c).frameOpen = (s.chan c).frameOpen ∧ (t.chan c).ts = (s.chan c).ts ∧
    t.cfg = s.cfg ∧ t.nowUs = s.nowUs ∧ t.nowMs = s.nowMs ∧ t.input = s.input ∧ t.ret = s.ret ∧
    (code = s.cfg.keyEsc ∨ code = s.cfg.keyEnt → (t.chan c).dig = (s.chan c).dig) ∧
    (code ≠ s.cfg.keyEnt ∨ code = s.cfg.keyEsc →
      t.out = s.out ∧ (t.chan c).aux = (s.chan c).aux) ∧
    ∀ a, a ≠ writeIndex s.cfg ((dropStale c s).chan c).len →
      Memory.read (t.chan c).dig a = Memory.read (s.chan c).dig a

/-- R140, which the spec marks as derived from R136, R138 and R146: a digit more than
`BUTTON_TIMEOUT_MS` after the previous button, mid-passcode, leaves a session that holds that digit
alone; one not later than that continues it. Nothing is reported and the other channel's session is
not touched. -/
def Obligations.LateDigitDiscardsPasscode : Prop :=
  ∀ (c : Chan) (code : Nat) (s : State), s.Inv → code ≠ s.cfg.keyEsc → code ≠ s.cfg.keyEnt →
    let k := s.chan c
    let gap := elapsed s.cfg s.nowMs k.last
    ∃ t, exec (.key c code) s = .next t ∧ t.out = s.out ∧ (t.chan c).aux = k.aux ∧
      (∀ d, d ≠ c → t.chan d = s.chan d) ∧
      (k.len ≠ 0 → s.cfg.buttonTimeoutMs < gap → (t.chan c).passcode = [digitChar code]) ∧
      (gap ≤ s.cfg.buttonTimeoutMs → k.len < s.cfg.pcap →
        (t.chan c).passcode = k.passcode ++ [digitChar code])

/-- R151, which the spec marks as derived from R136 to R146: the transition table of the session
machine, after the staleness test, row by row. -/
def Obligations.SessionTransitionTable : Prop :=
  ∀ (c : Chan) (code : Nat) (s : State), s.Inv →
    let k := s.chan c
    ¬ (k.len ≠ 0 ∧ s.cfg.buttonTimeoutMs < elapsed s.cfg s.nowMs k.last) →
    ∃ t, exec (.key c code) s = .next t ∧ (t.chan c).last = s.nowMs ∧
      (code = s.cfg.keyEsc →
        (t.chan c).len = 0 ∧ t.out = s.out ∧ (t.chan c).aux = k.aux) ∧
      (code = s.cfg.keyEnt → k.len = 0 →
        (t.chan c).len = 0 ∧ t.out = s.out ++ [.pass [] c] ∧ (t.chan c).aux = false) ∧
      (code = s.cfg.keyEnt → k.len ≠ 0 →
        (t.chan c).len = 0 ∧
        t.out = s.out ++ [.pass ((List.range k.len).map fun i => Memory.read k.dig i) c] ∧
        (t.chan c).aux = decide (Memory.read k.dig 0 = 0x38)) ∧
      (code ≠ s.cfg.keyEsc → code ≠ s.cfg.keyEnt →
        t.out = s.out ∧ (t.chan c).aux = k.aux ∧
        (k.len = 0 → (t.chan c).len = 1) ∧
        (k.len ≠ 0 → k.len < s.cfg.pcap → (t.chan c).len = k.len + 1) ∧
        (k.len = s.cfg.pcap → (t.chan c).len = 2))

/-- R147, which the spec marks as derived from R146: the keypad overwrite invariant. After `m >= 1`
consecutive digits from EMPTY the first character is kept, the later ones run on from index 1 after
each overflow, and no cell at `PCAP` or above is ever listed. -/
def Obligations.OverflowKeepsFirstCharacter : Prop :=
  ∀ (c : Chan) (codes : List Nat) (s : State) (hm : 0 < codes.length), s.cfg.Wf →
    (s.chan c).len = 0 → Memory.wf (s.chan c).dig = true →
    Memory.below s.cfg.pcap (s.chan c).dig = true →
    ∃ t, pressAll c codes s = .next t ∧
      let k := t.chan c
      let m := codes.length
      let pcap := s.cfg.pcap
      Memory.read k.dig 0 = digitChar codes[0] ∧ Memory.below pcap k.dig = true ∧
      (m ≤ pcap → k.len = m ∧
        ∀ i (hi : i < m), Memory.read k.dig i = digitChar codes[i]) ∧
      (pcap < m →
        let j := (m - pcap - 1) % (pcap - 1)
        k.len = j + 2 ∧ j + 1 < m ∧
        ∀ i, i ≤ j → ∀ hi : m - j - 1 + i < m,
          Memory.read k.dig (1 + i) = digitChar codes[m - j - 1 + i])

/-! ### Reporter -/

/-- R161, R163: RPTF answers `F<id>,<ch>` and the terminator (handed out as log 2 says), and writes
no state of the unit (R82). -/
def Obligations.CredentialLine : Prop :=
  ∀ (id : Nat) (ch : Chan) (s : State),
    exec (.rptf id ch) s = .next { s with ret := .line ([0x46] ++ decText id ++ [0x2C] ++
      [match ch with | .ch1 => 0x31 | .ch2 => 0x32] ++ s.cfg.nl) }

/-- R162, R163: RPTP answers `P<digits>,<ch>` and the terminator (handed out as log 2 says), the
digits unchanged and in order, and writes no state of the unit (R82). -/
def Obligations.PasscodeLine : Prop :=
  ∀ (digits : List Byte) (ch : Chan) (s : State),
    exec (.rptp digits ch) s = .next { s with ret := .line ([0x50] ++ digits ++ [0x2C] ++
      [match ch with | .ch1 => 0x31 | .ch2 => 0x32] ++ s.cfg.nl) }

/-- R14's `dec`: ASCII digits that stand for the number, no leading zero, `"0"` for 0, and no
shorter text of ASCII digits stands for it. -/
def Obligations.DecimalTextIsShortest : Prop :=
  decText 0 = [0x30] ∧
  ∀ n : Nat, (∀ b ∈ decText n, 0x30 ≤ b.toNat ∧ b.toNat ≤ 0x39) ∧ decNumber (decText n) = n ∧
    (n ≠ 0 → (decText n).head? ≠ some 0x30) ∧
    ∀ text : List Byte, text ≠ [] → (∀ b ∈ text, 0x30 ≤ b.toNat ∧ b.toNat ≤ 0x39) →
      decNumber text = n → (decText n).length ≤ text.length

/-- R162, of which the spec marks this as derived from R146 and R75: the line of every event a run
can log is "parseable by splitting at the last comma": its text before the terminator gives the
event back. At the default `KEYW` a passcode's bytes lie in `0x30..0x3F`. -/
def Obligations.LinesReadBack : Prop :=
  ∀ (cfg : Config) (e : Event), e.Wf cfg →
    ∃ text, eventLine cfg e = text ++ cfg.nl ∧ readLine text = some e ∧
      (∀ digits ch, e = .pass digits ch → ∀ b ∈ digits, isDigitChar cfg b = true ∧
        (cfg.keyw = 4 → 0x30 ≤ b.toNat ∧ b.toNat ≤ 0x3F))

/-- R160, R165, R166: one line per event, in the order of `out`, and none begins with 'G' (0x47). -/
def Obligations.OneLinePerEvent : Prop :=
  ∀ s : State, s.lines.length = s.out.length ∧
    (∀ i : Nat, s.lines[i]? = (s.out[i]?).map (eventLine s.cfg)) ∧
    ∀ line ∈ s.lines, line.head? = some 0x46 ∨ line.head? = some 0x50

/-! ### Reset -/

/-- R195: RESET puts every register of both channels, every digit cell among them, to 0 and empties
the log, in every state. -/
def Obligations.ResetClearsTheUnit : Prop :=
  ∀ s : State, ∃ t, exec .reset s = .next t ∧ t.out = [] ∧ encode s.cfg .reset = [0xF0] ∧
    ∀ c : Chan,
      let k := t.chan c
      k.buf = 0 ∧ k.cnt = 0 ∧ k.frameOpen = false ∧ k.ts = 0 ∧ (∀ i, Memory.read k.dig i = 0) ∧
      k.len = 0 ∧ k.last = 0 ∧ k.aux = false

/-- The frame of RESET: it leaves the parameters, FMT among them, and both clocks (R196), and a
second one changes nothing. That it also leaves what is still to be applied and what was handed out
is the model's choice (log 13). -/
def Obligations.ResetKeepsParametersAndInputs : Prop :=
  ∀ s t : State, exec .reset s = .next t →
    t.cfg = s.cfg ∧ t.nowUs = s.nowUs ∧ t.nowMs = s.nowMs ∧ t.input = s.input ∧ t.ret = s.ret ∧
    exec .reset t = .next t

/-- R41: what every register holds after reset, and that RESET leaves `FMT`. -/
def Obligations.ResetState : Prop :=
  ∀ c : Chan,
    let k := State.reset.chan c
    k.buf = 0 ∧ k.cnt = 0 ∧ k.frameOpen = false ∧ k.ts = 0 ∧ k.len = 0 ∧ k.last = 0 ∧
    k.aux = false ∧ (∀ i, Memory.read k.dig i = 0) ∧ State.reset.out = [] ∧ k.acc = false ∧
    ∀ s t : State, exec .reset s = .next t → t.cfg.fmt = s.cfg.fmt

/-- The state after reset meets the invariant. -/
def Obligations.ResetMeetsTheInvariant : Prop := State.reset.Inv

/-! ### The whole machine -/

/-- R20's widths, R26, R31, R52, R162 as one invariant, of which the spec marks R26 and R52 as
derived: every step from a state that meets it, by whatever record, leaves a state that meets it. -/
def Obligations.EveryStepKeepsTheInvariant : Prop :=
  ∀ s t : State, s.Inv → step s = .next t → t.Inv

/-- R170: every operation is total, from every state that meets the invariant; a step never faults
and is refused only for a record that names no operation or an internal one (R85, R82). -/
def Obligations.EveryOperationIsTotal : Prop :=
  ∀ s : State, s.Inv → (∀ i : Instr, ∃ t, exec i s = .next t) ∧
    ((∃ t, step s = .next t) ∨ (∃ e, step s = .refused (.undecodable e)) ∨
      ∃ i : Instr, i.isEnvironment = false ∧ step s = .refused (.notSchedulable i))

/-- R37, R36, R196: the constants have their values and no step changes a parameter. -/
def Obligations.NoStepChangesParameters : Prop :=
  State.reset.cfg.quietPeriodUs = 75000 ∧ State.reset.cfg.buttonTimeoutMs = 2000 ∧
  credentialWidth = 26 ∧ State.reset.cfg.fmt = 1 ∧
  ∀ s t : State, step s = .next t → t.cfg = s.cfg

/-- R12, R35: the log is only ever appended to (RESET apart, R195): at most one event by any
operation but POLLALL, at most two by POLLALL, none by an edge. -/
def Obligations.LogIsOnlyAppendedTo : Prop :=
  ∀ (i : Instr) (s t : State), exec i s = .next t → i ≠ .reset →
    ∃ events, t.out = s.out ++ events ∧ (i ≠ .pollall → events.length ≤ 1) ∧ events.length ≤ 2 ∧
      (i.context = some .interrupt → events = [])

/-- R182, R65, R119: the interrupt context writes no session register, no `aux` and no event; the
main context never writes `ts`; no operation of either writes a parameter or a clock. -/
def Obligations.EachContextWritesItsOwn : Prop :=
  ∀ (i : Instr) (s t : State) (d : Chan), exec i s = .next t →
    (i.context = some .interrupt → (t.chan d).dig = (s.chan d).dig ∧
      (t.chan d).len = (s.chan d).len ∧ (t.chan d).last = (s.chan d).last ∧
      (t.chan d).aux = (s.chan d).aux ∧ t.out = s.out) ∧
    (i.context = some .main → (t.chan d).ts = (s.chan d).ts) ∧
    t.cfg = s.cfg ∧ t.nowUs = s.nowUs ∧ t.nowMs = s.nowMs

/-- R120: "No operation other than the closing poll and `RESET` clears `open[c]`; no operation moves
`ts[c]` while the channel is OPEN" (RESET apart, which closes it). -/
def Obligations.OnlyClosingPollOrResetClosesFrame : Prop :=
  ∀ (i : Instr) (s t : State) (c : Chan), exec i s = .next t → (s.chan c).frameOpen = true →
    ((t.chan c).frameOpen = false → i = .reset ∨ ((i = .poll c ∨ i = .pollall) ∧
      s.cfg.quietPeriodUs < elapsed s.cfg s.nowUs (s.chan c).ts)) ∧
    (i ≠ .reset → (t.chan c).ts = (s.chan c).ts)

/-- R34, R144, R145: `aux[c]` changes only by RESET or by an ENTER on channel `c`, which is the
operation that emits a `PASS` of that channel; its value is then whether the first character is
'8'. -/
def Obligations.AuxIsWrittenByEnterOrReset : Prop :=
  ∀ (i : Instr) (s t : State) (c : Chan), exec i s = .next t →
    (t.chan c).aux ≠ (s.chan c).aux →
    (i = .reset ∧ (t.chan c).aux = false) ∨
    ∃ digits, .pass digits c ∈ t.out.drop s.out.length ∧
      (t.chan c).aux = decide (digits.head? = some 0x38)

/-- R190, which the spec marks as derived from R105, R110 and R136: the registers of a channel and
the events of that channel after any sequence of the environment's operations are those after the
operations that address the channel alone, POLLALL counted as its POLL. RESET, which addresses both,
is kept (log 18). -/
def Obligations.ChannelsAreIndependent : Prop :=
  ∀ (c : Chan) (s : State) (trace : List Applied), s.Inv →
    (∀ a ∈ trace, a.op.isEnvironment = true) →
    ∃ t u, run trace.length (s.load (trace.map (Applied.record s.cfg))) = .next t ∧
      run (projTrace c trace).length
        (s.load ((projTrace c trace).map (Applied.record s.cfg))) = .next u ∧
      t.chan c = u.chan c ∧ eventsOf c t.out = eventsOf c u.out

/-- R30, R138, R142, R50: a digit cell at or beyond `len[c]` is unobservable. Two states that differ in
nothing but such cells give the same observation after every sequence of the environment's
operations. -/
def Obligations.CellsBeyondLengthAreUnobservable : Prop :=
  ∀ (s u : State) (trace : List Applied), s.Inv → u.Inv → s.cfg = u.cfg → s.out = u.out →
    (∀ c : Chan, { s.chan c with dig := [] } = { u.chan c with dig := [] } ∧
      ∀ i, i < (s.chan c).len →
        Memory.read (s.chan c).dig i = Memory.read (u.chan c).dig i) →
    (∀ a ∈ trace, a.op.isEnvironment = true) →
    ∃ t v, run trace.length (s.load (trace.map (Applied.record s.cfg))) = .next t ∧
      run trace.length (u.load (trace.map (Applied.record u.cfg))) = .next v ∧
      t.observed = v.observed

/-- R60 with R190's derivation: an operation on channel 1 and an operation on channel 2 commute in
their effect on the registers, and log the same events in either order: at most one of channel 1 and
at most one of channel 2. Only the relative position of the two depends on the order. -/
def Obligations.OperationsOnTwoChannelsCommute : Prop :=
  ∀ (i j : Instr) (s : State), s.Inv →
    i ∈ [.edge0 .ch1, .edge1 .ch1, .poll .ch1] → j ∈ [.edge0 .ch2, .edge1 .ch2, .poll .ch2] →
    ∃ a b, andThen (exec i s) (exec j) = .next a ∧ andThen (exec j s) (exec i) = .next b ∧
      a.ch1 = b.ch1 ∧ a.ch2 = b.ch2 ∧
      (∃ e1 e2, a.out = s.out ++ e1 ++ e2 ∧ b.out = s.out ++ e2 ++ e1 ∧
        e1.length ≤ 1 ∧ e2.length ≤ 1 ∧ (∀ e ∈ e1, e.chan = .ch1) ∧ (∀ e ∈ e2, e.chan = .ch2))

/-- R117, R118, R130 end to end: a card presented to an idle channel, all of whose bits arrive
before the poll that closes the frame, is reported by that poll with exactly its id, whatever the
parity bits, the bit spacing and the clocks' wrap-around (CARD is R84's). -/
def Obligations.PresentedCardIsReported : Prop :=
  ∀ (c : Chan) (l : Bit) (id : Payload) (p : Bit) (t0 dt t ms : Nat) (s : State),
    s.cfg.Wf → s.cfg.fmt = 1 → (s.chan c).frameOpen = false → t0 + 25 * dt ≤ t →
    s.cfg.quietPeriodUs < t - t0 → t - t0 < 2 ^ s.cfg.tsw →
    ∃ s', run 27 (s.load (cardTrace s.cfg c l id p t0 dt ++ [traceLine s.cfg t ms (.poll c)])) =
        .next s' ∧
      s'.out = s.out ++ [.cred id.toNat c] ∧ (s'.chan c).frameOpen = false ∧
      (s'.chan c).passcode = (s.chan c).passcode ∧ s'.input = []

/-! ### The edge of the unit -/

/-- R70 at the pins: one of the two transitions of a data line, the one `EDGE_POL` names, is one
edge operation of its channel and bit; the other, and no change, is none (informative, log 15). -/
def Obligations.OneOperationPerTriggerEdge : Prop :=
  ∀ (cfg : Config) (c : Chan) (b : Bit) (before after : Bool),
    lineEvent cfg c b before after =
      if (cfg.edgePol = .falling ∧ before = true ∧ after = false) ∨
          (cfg.edgePol = .rising ∧ before = false ∧ after = true)
      then some (if b = 0 then .edge0 c else .edge1 c) else none

/-! ### Scheduling, time, parameters -/

/-- KEY stops exactly as its button's action stops, and is never refused. That an action can fault at
all is the model's choice: an ENTER with `len[c]` above `PCAP` reads a cell that does not exist (log
10, DESIGN CHOICE); R136 to R138 give KEY no exception, and no state that meets the invariant gets
there. -/
def Obligations.KeyFaultsAsItsActionFaults : Prop :=
  ∀ (c : Chan) (code : Nat) (s : State),
    let k := s.chan c
    let s1 := if k.len ≠ 0 ∧ s.cfg.buttonTimeoutMs < elapsed s.cfg s.nowMs k.last
      then s.setChan c { k with len := 0 } else s
    let action := if code = s.cfg.keyEsc then exec (.kesc c) s1
      else if code = s.cfg.keyEnt then exec (.kent c) s1 else exec (.kdigit c code) s1
    (∀ f, action = .fault f ↔ exec (.key c code) s = .fault f) ∧
    (∀ r, exec (.key c code) s ≠ .refused r) ∧
    (∀ f, exec (.key c code) s = .fault f → ¬ s.Inv)

/-- R9, R80: the state of the unit changes only by EDGE0, EDGE1, POLL, POLLALL and RESET. A step that
writes a register of a channel or the log applied one of the five. -/
def Obligations.OnlyEnvironmentOperationsChangeTheUnit : Prop :=
  ∀ s t : State, step s = .next t → t.ch1 ≠ s.ch1 ∨ t.ch2 ≠ s.ch2 ∨ t.out ≠ s.out →
    ∃ (r : Record) (rest : List Record) (i : Instr), s.input = r :: rest ∧
      decode s.cfg r.format r.bytes = .ok i ∧
      ((∃ c, i = .edge0 c) ∨ (∃ c, i = .edge1 c) ∨ (∃ c, i = .poll c) ∨ i = .pollall ∨ i = .reset)

/-- R82, R110, R126: the internal operations run inside the poll that closes their frame, as part of
its one transition. A closing poll of a 26-bit frame is its W26 on the channel it has just reset, and
reports what DEC0 or DEC1, by `FMT`, answers; any other closing poll is its WKEY, which is KEY of the
low `KEYW` bits, on the channel it has just reset. What W26 and WKEY mean taken by themselves is the
model's reading (log 5). -/
def Obligations.PollRunsTheInternalOperations : Prop :=
  ∀ (c : Chan) (s : State), s.cfg.Wf → (s.chan c).frameOpen = true →
    s.cfg.quietPeriodUs < elapsed s.cfg s.nowUs (s.chan c).ts →
    let k := s.chan c
    let closed := s.setChan c { k with buf := 0, cnt := 0, frameOpen := false }
    let v : RawFrame := BitVec.ofNat 26 k.buf
    (k.cnt = 26 →
      (∃ l id t, (l.toNat <<< 25) ||| (id.toNat <<< 1) ||| t.toNat = k.buf % 2 ^ 26 ∧
        exec (.poll c) s = exec (.w26 c l id t) closed) ∧
      ∃ id, exec (if s.cfg.fmt = 0 then .dec0 v else .dec1 v) s = .next { s with ret := .id id } ∧
        exec (.poll c) s = .next { closed with out := s.out ++ [.cred id c] }) ∧
    (k.cnt ≠ 26 → exec (.poll c) s = exec (.wkey c k.buf) closed ∧
      exec (.poll c) s = exec (.key c (k.buf % 2 ^ s.cfg.keyw)) closed)

/-- R13: `elapsed(a, b) = (a - b) mod 2^TSW`, the one number below `2^TSW` that added to `b` gives `a`
modulo `2^TSW`; of two true times less than `2^TSW` apart it is the time between them. -/
def Obligations.ElapsedIsModularDifference : Prop :=
  ∀ (cfg : Config) (a b : Nat), elapsed cfg a b < 2 ^ cfg.tsw ∧
    (elapsed cfg a b + b) % 2 ^ cfg.tsw = a % 2 ^ cfg.tsw ∧
    (b ≤ a → a - b < 2 ^ cfg.tsw →
      elapsed cfg (a % 2 ^ cfg.tsw) (b % 2 ^ cfg.tsw) = a - b)

/-- R7: each parameter has the default of the table, and the defaults meet the constraint column.
(`NCH` = 2 is the type `Chan`, `CREDENTIAL_WIDTH` a constant: the table fixes both.) -/
def Obligations.DefaultParameters : Prop :=
  let cfg := State.reset.cfg
  credentialWidth = 26 ∧ cfg.quietPeriodUs = 75000 ∧ cfg.buttonTimeoutMs = 2000 ∧ cfg.bufw = 32 ∧
  cfg.cntw = 8 ∧ cfg.tsw = 32 ∧ cfg.keyw = 4 ∧ cfg.keyEsc = 10 ∧ cfg.keyEnt = 11 ∧ cfg.pcap = 19 ∧
  cfg.lenw = 5 ∧ cfg.fmt = 1 ∧ cfg.idw = 26 ∧ cfg.nl = [0x0A] ∧ cfg.edgePol = .falling ∧ cfg.Wf
end

