-- ==== Sys2Proof/Laws/Decode.lean ====
section
/-! SUPPORT. The fields of the decoder and the encoder, each read back as written. -/

namespace Sys2Proof

@[simp] theorem chanOfByte_chanByte (c : Chan) : chanOfByte (chanByte c) = .ok c := by
  cases c <;> rfl

theorem chanOfByte_eq_ok {b : Byte} {c : Chan} : chanOfByte b = .ok c ↔ b = chanByte c := by
  unfold chanOfByte
  constructor
  · split_ifs with h0 h1 <;> intro h <;> cases h
    · exact h0
    · exact h1
  · rintro rfl
    cases c <;> rfl

/-! ### Bytes of a number -/

@[simp] theorem length_leBytes (n w : Nat) : (leBytes n w).length = n := by
  induction n generalizing w with
  | zero => rfl
  | succ n ih => simp [leBytes, ih]

@[simp] theorem length_valueBytes (width v : Nat) :
    (valueBytes width v).length = byteCount width := length_leBytes _ _

/-- `n` bytes of a number are the number modulo `256^n`. -/
theorem leValue_leBytes (n w : Nat) : leValue (leBytes n w) = w % 256 ^ n := by
  induction n generalizing w with
  | zero => simp [leBytes, leValue, Nat.mod_one]
  | succ n ih =>
    have h8 : (2 : Nat) ^ 8 = 256 := rfl
    rw [leBytes, leValue, ih, BitVec.toNat_ofNat, h8, Nat.pow_succ']
    exact (Nat.mod_mul (x := w) (a := 256)).symm

/-- The bytes of the number that bytes hold are those bytes. -/
theorem leBytes_leValue (bytes : List Byte) : leBytes bytes.length (leValue bytes) = bytes := by
  induction bytes with
  | nil => rfl
  | cons b bs ih =>
    have hb := b.isLt
    rw [List.length_cons, leBytes, leValue]
    congr 1
    · apply BitVec.eq_of_toNat_eq
      rw [BitVec.toNat_ofNat]; omega
    · rw [show (b.toNat + 256 * leValue bs) / 256 = leValue bs by omega, ih]

/-- The bytes of a width hold every value of the width. -/
theorem two_pow_le_byteCount (width : Nat) : 2 ^ width ≤ 256 ^ byteCount width := by
  rw [show 256 = 2 ^ 8 from rfl, ← Nat.pow_mul]
  exact Nat.pow_le_pow_right (by decide) (by unfold byteCount; omega)

/-! ### Values of a width -/

/-- A value its width holds is read back. -/
@[simp] theorem readValue_valueBytes (f : Format) {width v : Nat} (h : v < 2 ^ width) :
    readValue f width (valueBytes width v) = .ok v := by
  have hv : leValue (valueBytes width v) = v := by
    rw [valueBytes, leValue_leBytes]
    exact Nat.mod_eq_of_lt (h.trans_le (two_pow_le_byteCount width))
  simp [readValue, hv, h]

/-- What is read is a value of the width, and its bytes are the bytes read. -/
theorem readValue_eq_ok {f : Format} {width v : Nat} {bytes : List Byte} :
    readValue f width bytes = .ok v ↔ v < 2 ^ width ∧ bytes = valueBytes width v := by
  constructor
  · unfold readValue
    split_ifs with hl hv
    · intro h; cases h
    · intro h; cases h
      exact ⟨hv, by rw [valueBytes, ← not_not.mp hl, leBytes_leValue]⟩
    · intro h; cases h
  · rintro ⟨hv, rfl⟩
    exact readValue_valueBytes f hv

/-- A value and the channel byte behind it are read back. -/
@[simp] theorem readValueChan_valueBytes (f : Format) {width v : Nat} (h : v < 2 ^ width)
    (c : Chan) : readValueChan f width (valueBytes width v ++ [chanByte c]) = .ok (v, c) := by
  simp [readValueChan, h]

theorem readValueChan_eq_ok {f : Format} {width : Nat} {bytes : List Byte} {p : Nat × Chan} :
    readValueChan f width bytes = .ok p ↔
      p.1 < 2 ^ width ∧ bytes = valueBytes width p.1 ++ [chanByte p.2] := by
  constructor
  · unfold readValueChan
    split
    · intro h; cases h
    · rename_i ch hl
      split
      · rename_i v c hv hc
        intro h; cases h
        rw [readValue_eq_ok] at hv; rw [chanOfByte_eq_ok] at hc
        exact ⟨hv.1, by rw [← hv.2, ← hc]; exact (List.dropLast_append_getLast? ch hl).symm⟩
      · intro h; cases h
      · intro h; cases h
  · rintro ⟨hv, rfl⟩
    exact readValueChan_valueBytes f hv p.2

/-! ### The credential frame -/

/-- The three fields of a credential frame are where R73's table has them. -/
theorem frameValue_fields (l : Bit) (id : Payload) (t : Bit) :
    (frameValue l id t).extractLsb' 25 1 = l ∧ (frameValue l id t).extractLsb' 1 24 = id ∧
      (frameValue l id t).extractLsb' 0 1 = t := by
  refine ⟨?_, ?_, ?_⟩ <;>
  · ext i hi
    simp only [frameValue, BitVec.getElem_extractLsb', BitVec.getLsbD_append]
    split_ifs <;> first | omega | (rw [← BitVec.getLsbD_eq_getElem hi]; congr 1; omega)

/-- Every 26-bit pattern is a credential frame of its three fields (R73). -/
theorem frameValue_of_fields (v : RawFrame) :
    frameValue (v.extractLsb' 25 1) (v.extractLsb' 1 24) (v.extractLsb' 0 1) = v := by
  apply BitVec.eq_of_getLsbD_eq
  intro i hi
  simp only [frameValue, BitVec.getLsbD_append, BitVec.getLsbD_extractLsb']
  split_ifs with h1 h2 <;> (rw [decide_eq_true (by omega), Bool.true_and]; congr 1; omega)

/-- R73's number form: `v = (L << 25) | (id << 1) | T`. -/
theorem frameValue_toNat (l : Bit) (id : Payload) (t : Bit) :
    (frameValue l id t).toNat = l.toNat * 2 ^ 25 + id.toNat * 2 + t.toNat := by
  have hl := l.isLt; have hi := id.isLt; have ht := t.isLt
  simp only [frameValue, BitVec.toNat_append]
  rw [← Nat.shiftLeft_add_eq_or_of_lt ht, ← Nat.shiftLeft_add_eq_or_of_lt hi, Nat.shiftLeft_eq,
    Nat.shiftLeft_eq]
  omega

end Sys2Proof
end

