-- ==== Sys2Proof/Laws/Memory.lean ====
section
/-! SUPPORT. The digit store: read after write, the canonical form, the bounds (R30, R51, R52). -/

namespace Sys2Proof.Machine

theorem Memory.wfFrom_mono {lo lo' : Nat} (h : lo' ≤ lo) {m : Memory}
    (hm : Memory.wfFrom lo m = true) : Memory.wfFrom lo' m = true := by
  cases m with
  | nil => rfl
  | cons p m =>
    obtain ⟨a, b⟩ := p
    simp only [Memory.wfFrom, Bool.and_eq_true, decide_eq_true_eq] at hm ⊢
    exact ⟨⟨by omega, hm.1.2⟩, hm.2⟩

/-- A cell below the first listed index holds 0. -/
theorem Memory.read_of_lt {lo : Nat} {m : Memory} (hm : Memory.wfFrom lo m = true) {i : Nat}
    (hi : i < lo) : Memory.read m i = 0 := by
  induction m generalizing lo with
  | nil => rfl
  | cons p m ih =>
    obtain ⟨a, b⟩ := p
    simp only [Memory.wfFrom, Bool.and_eq_true, decide_eq_true_eq] at hm
    simp only [Memory.read]
    rw [if_neg (by omega)]
    exact ih hm.2 (by omega)

theorem Memory.read_write_from {lo : Nat} {m : Memory} (hm : Memory.wfFrom lo m = true)
    (i j : Nat) (v : Byte) :
    Memory.read (Memory.write m i v) j = if j = i then v else Memory.read m j := by
  induction m generalizing lo with
  | nil =>
    simp only [Memory.write]
    split_ifs <;> simp only [Memory.read] <;> (try split_ifs) <;> first | rfl | omega | simp_all
  | cons p m ih =>
    obtain ⟨a, b⟩ := p
    simp only [Memory.wfFrom, Bool.and_eq_true, decide_eq_true_eq] at hm
    have ih := ih hm.2
    have below : ∀ x, x ≤ a → Memory.read m x = 0#8 := fun x hx =>
      Memory.read_of_lt hm.2 (by omega)
    simp only [Memory.write]
    split_ifs <;> (try simp only [Memory.read]) <;> (try split_ifs) <;>
      first
        | rfl
        | omega
        | (rw [ih, if_pos (by omega)])
        | (rw [ih, if_neg (by omega)])
        | (rw [below j (by omega)]; simp_all only [])

/-- Reading after a write: the written cell holds the value, every other cell is as before. -/
theorem Memory.read_write {m : Memory} (hm : Memory.wf m = true) (i j : Nat) (v : Byte) :
    Memory.read (Memory.write m i v) j = if j = i then v else Memory.read m j :=
  Memory.read_write_from hm i j v

theorem Memory.wfFrom_write {lo : Nat} {m : Memory} (hm : Memory.wfFrom lo m = true) {i : Nat}
    (hi : lo ≤ i) (v : Byte) : Memory.wfFrom lo (Memory.write m i v) = true := by
  induction m generalizing lo with
  | nil =>
    simp only [Memory.write]
    split_ifs with hv
    · rfl
    · simp [Memory.wfFrom, hv, hi]
  | cons p m ih =>
    obtain ⟨a, b⟩ := p
    have hm0 := hm
    simp only [Memory.wfFrom, Bool.and_eq_true, decide_eq_true_eq] at hm
    simp only [Memory.write]
    split_ifs with h1 hv h2 hv
    · exact hm0
    · simp only [Memory.wfFrom, Bool.and_eq_true, decide_eq_true_eq, bne_iff_ne]
      exact ⟨⟨hi, hv⟩, ⟨by omega, by simpa using hm.1.2⟩, hm.2⟩
    · exact Memory.wfFrom_mono (by omega) hm.2
    · simp only [Memory.wfFrom, Bool.and_eq_true, decide_eq_true_eq, bne_iff_ne]
      exact ⟨⟨hi, hv⟩, h2 ▸ hm.2⟩
    · simp only [Memory.wfFrom, Bool.and_eq_true, decide_eq_true_eq]
      exact ⟨hm.1, ih hm.2 (by omega)⟩

/-- A write keeps the canonical form. -/
theorem Memory.wf_write {m : Memory} (hm : Memory.wf m = true) (i : Nat) (v : Byte) :
    Memory.wf (Memory.write m i v) = true :=
  Memory.wfFrom_write hm (Nat.zero_le i) v

/-- A write below a bound keeps every listed cell below it. -/
theorem Memory.below_write {n : Nat} {m : Memory} (hm : Memory.below n m = true) {i : Nat}
    (hi : i < n) (v : Byte) : Memory.below n (Memory.write m i v) = true := by
  induction m with
  | nil => simp only [Memory.write]; split_ifs <;> simp [Memory.below, hi]
  | cons p m ih =>
    obtain ⟨a, b⟩ := p
    simp only [Memory.below, List.all_cons, Bool.and_eq_true, decide_eq_true_eq] at hm ih
    simp only [Memory.write]
    split_ifs <;>
      simp only [Memory.below, List.all_cons, Bool.and_eq_true, decide_eq_true_eq] <;>
      simp_all only [and_self]

/-- Two canonical stores that read alike are the same list. -/
theorem Memory.eq_of_read {m m' : Memory} {lo : Nat} (hm : Memory.wfFrom lo m = true)
    (hm' : Memory.wfFrom lo m' = true) (h : ∀ i, Memory.read m i = Memory.read m' i) : m = m' := by
  induction m generalizing lo m' with
  | nil =>
    cases m' with
    | nil => rfl
    | cons p m' =>
      obtain ⟨a, b⟩ := p
      have := h a
      simp only [Memory.wfFrom, Bool.and_eq_true, bne_iff_ne] at hm'
      simp only [Memory.read, if_true] at this
      exact absurd this.symm hm'.1.2
  | cons p m ih =>
    obtain ⟨a, b⟩ := p
    simp only [Memory.wfFrom, Bool.and_eq_true, bne_iff_ne, decide_eq_true_eq] at hm
    cases m' with
    | nil =>
      have := h a
      simp only [Memory.read, if_true] at this
      exact absurd this hm.1.2
    | cons p' m' =>
      obtain ⟨a', b'⟩ := p'
      simp only [Memory.wfFrom, Bool.and_eq_true, bne_iff_ne, decide_eq_true_eq] at hm'
      have haa : a = a' := by
        rcases Nat.lt_trichotomy a a' with hl | hl | hl
        · have := h a
          simp only [Memory.read, if_true] at this
          rw [if_neg (by omega), Memory.read_of_lt hm'.2 (by omega)] at this
          exact absurd this hm.1.2
        · exact hl
        · have := h a'
          simp only [Memory.read, if_true] at this
          rw [if_neg (by omega), Memory.read_of_lt hm.2 (by omega)] at this
          exact absurd this.symm hm'.1.2
      subst haa
      have hb := h a
      simp only [Memory.read, if_true] at hb
      subst hb
      congr 1
      apply ih hm.2 hm'.2
      intro i
      by_cases hi : a = i
      · subst hi
        rw [Memory.read_of_lt hm.2 (by omega), Memory.read_of_lt hm'.2 (by omega)]
      · have := h i
        simpa only [Memory.read, hi, if_false] using this

end Sys2Proof.Machine
end

