-- ==== Sys2Proof/Laws/State.lean ====
section
/-! SUPPORT. One lemma per field per update of `State`, so that no proof unfolds a record update. -/

namespace Sys2Proof.Machine

variable (s : State) (c d : Chan) (k : Channel) (e : Event)

@[simp] theorem setChan_out : (s.setChan c k).out = s.out := by cases c <;> rfl
@[simp] theorem setChan_cfg : (s.setChan c k).cfg = s.cfg := by cases c <;> rfl
@[simp] theorem setChan_nowUs : (s.setChan c k).nowUs = s.nowUs := by cases c <;> rfl
@[simp] theorem setChan_nowMs : (s.setChan c k).nowMs = s.nowMs := by cases c <;> rfl
@[simp] theorem setChan_input : (s.setChan c k).input = s.input := by cases c <;> rfl
@[simp] theorem setChan_ret : (s.setChan c k).ret = s.ret := by cases c <;> rfl
@[simp] theorem chan_setChan_same : (s.setChan c k).chan c = k := by cases c <;> rfl
@[simp] theorem chan_setChan_of_ne (h : d ≠ c) : (s.setChan c k).chan d = s.chan d := by
  cases c <;> cases d <;> first | rfl | exact absurd rfl h
@[simp] theorem setChan_chan_self : s.setChan c (s.chan c) = s := by cases c <;> rfl
@[simp] theorem setChan_setChan (k' : Channel) :
    (s.setChan c k).setChan c k' = s.setChan c k' := by cases c <;> rfl
theorem setChan_comm (h : c ≠ d) (k' : Channel) :
    (s.setChan c k).setChan d k' = (s.setChan d k').setChan c k := by
  cases c <;> cases d <;> first | rfl | exact absurd rfl h

@[simp] theorem chan_ch1 : s.chan .ch1 = s.ch1 := rfl
@[simp] theorem chan_ch2 : s.chan .ch2 = s.ch2 := rfl
@[simp] theorem setChan_ch1_ch1 : (s.setChan .ch1 k).ch1 = k := rfl
@[simp] theorem setChan_ch1_ch2 : (s.setChan .ch1 k).ch2 = s.ch2 := rfl
@[simp] theorem setChan_ch2_ch1 : (s.setChan .ch2 k).ch1 = s.ch1 := rfl
@[simp] theorem setChan_ch2_ch2 : (s.setChan .ch2 k).ch2 = k := rfl

@[simp] theorem emit_out : (s.emit e).out = s.out ++ [e] := rfl
@[simp] theorem emit_ch1 : (s.emit e).ch1 = s.ch1 := rfl
@[simp] theorem emit_ch2 : (s.emit e).ch2 = s.ch2 := rfl
@[simp] theorem emit_chan : (s.emit e).chan c = s.chan c := by cases c <;> rfl
@[simp] theorem emit_cfg : (s.emit e).cfg = s.cfg := rfl
@[simp] theorem emit_nowUs : (s.emit e).nowUs = s.nowUs := rfl
@[simp] theorem emit_nowMs : (s.emit e).nowMs = s.nowMs := rfl
@[simp] theorem emit_input : (s.emit e).input = s.input := rfl
@[simp] theorem emit_ret : (s.emit e).ret = s.ret := rfl
theorem emit_setChan : (s.setChan c k).emit e = (s.emit e).setChan c k := by cases c <;> rfl

variable (v : Nat) (bytes : List Byte)

@[simp] theorem returnId_out : (returnId v s).out = s.out := rfl
@[simp] theorem returnId_cfg : (returnId v s).cfg = s.cfg := rfl
@[simp] theorem returnId_chan : (returnId v s).chan c = s.chan c := by cases c <;> rfl
@[simp] theorem returnId_input : (returnId v s).input = s.input := rfl
@[simp] theorem returnId_ret : (returnId v s).ret = .id v := rfl
@[simp] theorem returnLine_out : (returnLine bytes s).out = s.out := rfl
@[simp] theorem returnLine_cfg : (returnLine bytes s).cfg = s.cfg := rfl
@[simp] theorem returnLine_chan : (returnLine bytes s).chan c = s.chan c := by cases c <;> rfl
@[simp] theorem returnLine_input : (returnLine bytes s).input = s.input := rfl
@[simp] theorem returnLine_ret : (returnLine bytes s).ret = .line bytes := rfl

@[simp] theorem resetUnit_out : (resetUnit s).out = [] := rfl
@[simp] theorem resetUnit_cfg : (resetUnit s).cfg = s.cfg := rfl
@[simp] theorem resetUnit_chan : (resetUnit s).chan c = Channel.reset := by cases c <;> rfl
@[simp] theorem resetUnit_input : (resetUnit s).input = s.input := rfl
@[simp] theorem resetUnit_ret : (resetUnit s).ret = s.ret := rfl

variable (r : Record) (rest : List Record)

@[simp] theorem applyRecord_out : (applyRecord r rest s).out = s.out := rfl
@[simp] theorem applyRecord_cfg : (applyRecord r rest s).cfg = s.cfg := rfl
@[simp] theorem applyRecord_ch1 : (applyRecord r rest s).ch1 = s.ch1 := rfl
@[simp] theorem applyRecord_ch2 : (applyRecord r rest s).ch2 = s.ch2 := rfl
@[simp] theorem applyRecord_chan : (applyRecord r rest s).chan c = s.chan c := by cases c <;> rfl
@[simp] theorem applyRecord_nowUs : (applyRecord r rest s).nowUs = r.nowUs % 2 ^ s.cfg.tsw := rfl
@[simp] theorem applyRecord_nowMs : (applyRecord r rest s).nowMs = r.nowMs % 2 ^ s.cfg.tsw := rfl
@[simp] theorem applyRecord_input : (applyRecord r rest s).input = rest := rfl
@[simp] theorem applyRecord_ret : (applyRecord r rest s).ret = s.ret := rfl

@[simp] theorem closeFrame_chan : (closeFrame c s).chan c =
    { s.chan c with buf := 0, cnt := 0, frameOpen := false } := by simp [closeFrame]
@[simp] theorem closeFrame_chan_of_ne (h : d ≠ c) : (closeFrame c s).chan d = s.chan d := by
  simp [closeFrame, h]
@[simp] theorem closeFrame_out : (closeFrame c s).out = s.out := by simp [closeFrame]
@[simp] theorem closeFrame_cfg : (closeFrame c s).cfg = s.cfg := by simp [closeFrame]
@[simp] theorem closeFrame_nowUs : (closeFrame c s).nowUs = s.nowUs := by simp [closeFrame]
@[simp] theorem closeFrame_nowMs : (closeFrame c s).nowMs = s.nowMs := by simp [closeFrame]
@[simp] theorem closeFrame_input : (closeFrame c s).input = s.input := by simp [closeFrame]
@[simp] theorem closeFrame_ret : (closeFrame c s).ret = s.ret := by simp [closeFrame]

/-- Two states are equal when their fields are. -/
theorem State.ext_chan {s t : State} (h1 : s.chan .ch1 = t.chan .ch1)
    (h2 : s.chan .ch2 = t.chan .ch2) (ho : s.out = t.out) (hc : s.cfg = t.cfg)
    (hu : s.nowUs = t.nowUs) (hm : s.nowMs = t.nowMs) (hi : s.input = t.input)
    (hr : s.ret = t.ret) : s = t := by
  cases s; cases t; simp_all

end Sys2Proof.Machine
end

