-- ==== Sys2Proof/Laws/Ops.lean ====
section
/-! SUPPORT. What each shared operation does, said once: the number forms of R14 and R76, CAPTURE
(R100), the digit store's accesses, the buttons and the poll. Later proofs cite these instead of
unfolding the operations. -/

namespace Sys2Proof.Machine

/-! ### Sequencing -/

@[simp] theorem andThen_next (s : State) (f : State → Answer) : andThen (.next s) f = f s := rfl
@[simp] theorem thenDo_next (s : State) (f : State → State) : thenDo (.next s) f = .next (f s) := rfl

theorem andThen_eq_next {a : Answer} {f : State → Answer} {t : State} :
    andThen a f = .next t ↔ ∃ s, a = .next s ∧ f s = .next t := by
  cases a <;> simp [andThen]

theorem thenDo_eq_next {a : Answer} {f : State → State} {t : State} :
    thenDo a f = .next t ↔ ∃ s, a = .next s ∧ f s = t := by
  cases a <;> simp [thenDo]

theorem next_inj {s t : State} (h : (.next s : Answer) = .next t) : s = t := by cases h; rfl

/-! ### Numbers -/

/-- R100: one append doubles the value and adds the bit, modulo `2^BUFW`. -/
theorem shiftIn_eq (cfg : Config) (buf : Nat) (b : Bit) :
    shiftIn cfg buf b = (2 * buf + b.toNat) % 2 ^ cfg.bufw := by
  have hb := b.isLt
  rw [shiftIn, ← Nat.shiftLeft_add_eq_or_of_lt (by omega), Nat.shiftLeft_eq]
  congr 1; omega

theorem shiftIn_lt (cfg : Config) (buf : Nat) (b : Bit) : shiftIn cfg buf b < 2 ^ cfg.bufw :=
  Nat.mod_lt _ (Nat.two_pow_pos _)

/-- R14: the counter stops at its largest value. -/
theorem satInc_eq_min {cfg : Config} {n : Nat} (h : n < 2 ^ cfg.cntw) :
    satInc cfg n = min (n + 1) (2 ^ cfg.cntw - 1) := by
  unfold satInc; split_ifs <;> omega

/-- The count of an admissible width holds a credential's length below its saturation. -/
theorem credentialWidth_lt {cfg : Config} (h : cfg.Wf) : 26 < 2 ^ cfg.cntw - 1 :=
  h.credential_lt_max

/-- The count is never 0 after an edge. -/
theorem satInc_pos {cfg : Config} (h : cfg.Wf) (n : Nat) : 1 ≤ satInc cfg n := by
  have := credentialWidth_lt h
  unfold satInc; split_ifs <;> omega

theorem satInc_lt (cfg : Config) {n : Nat} (h : n < 2 ^ cfg.cntw) :
    satInc cfg n < 2 ^ cfg.cntw := by
  unfold satInc; split_ifs <;> omega

/-- R13: the value of `(a - b) mod 2^TSW` lies below `2^TSW`. -/
theorem elapsed_lt (cfg : Config) (a b : Nat) : elapsed cfg a b < 2 ^ cfg.tsw := by
  have hp : (0 : Int) < 2 ^ cfg.tsw := by positivity
  have h0 := Int.emod_nonneg ((a : Int) - b) hp.ne'
  have h1 := Int.emod_lt_of_pos ((a : Int) - b) hp
  unfold elapsed
  zify
  rw [Int.toNat_of_nonneg h0]
  exact h1

/-- R13 in true time: less than `2^TSW` apart, the samples of two times are that far apart, however
often the clock has wrapped. -/
theorem elapsed_of_true_time (cfg : Config) {t0 t : Nat} (hle : t0 ≤ t)
    (hlt : t - t0 < 2 ^ cfg.tsw) :
    elapsed cfg (t % 2 ^ cfg.tsw) (t0 % 2 ^ cfg.tsw) = t - t0 := by
  unfold elapsed
  push_cast
  rw [← Int.sub_emod, ← Int.ofNat_sub hle]
  zify at hlt
  rw [Int.emod_eq_of_lt (Int.natCast_nonneg _) (by rw [Int.ofNat_sub hle]; exact_mod_cast hlt)]
  exact Int.toNat_natCast _

/-- R128, the formula as a slice: `v[24:1]`. -/
theorem dec1Value_eq (cfg : Config) (v : RawFrame) :
    dec1Value cfg v = v.toNat / 2 % 2 ^ 24 % 2 ^ cfg.idw := by
  have h : (v &&& ~~~((1 : RawFrame) <<< 25)) >>> 1 = (v.extractLsb' 1 24).setWidth 26 := by
    apply BitVec.eq_of_getLsbD_eq
    intro i hi
    simp only [BitVec.getLsbD_ushiftRight, BitVec.getLsbD_and, BitVec.getLsbD_not,
      BitVec.getLsbD_shiftLeft, BitVec.getLsbD_setWidth, BitVec.getLsbD_extractLsb']
    by_cases h : i < 24
    · have h1 : 1 + i < 25 := by omega
      have h2 : 1 + i < 26 := by omega
      simp [h, h1, h2, hi]
    · by_cases h25 : i = 24
      · subst h25; simp
      · have : i = 25 := by omega
        subst this; simp
  rw [dec1Value, h, BitVec.toNat_setWidth, BitVec.extractLsb'_toNat, Nat.shiftRight_eq_div_pow]
  congr 1
  omega

/-- R128: "the result is always in `[0, 2^24 - 1]`". -/
theorem dec1Value_lt (cfg : Config) (v : RawFrame) : dec1Value cfg v < 2 ^ 24 := by
  rw [dec1Value_eq]
  exact (Nat.mod_le _ _).trans_lt (Nat.mod_lt _ (by decide))

/-- A decoder's result has `IDW` bits. -/
theorem decValue_lt (cfg : Config) (v : RawFrame) : decValue cfg v < 2 ^ cfg.idw := by
  unfold decValue; split_ifs <;> exact Nat.mod_lt _ (Nat.two_pow_pos _)

/-- R126 to R128: what a closing poll reports of a 26-bit frame. -/
theorem decValue_credentialValue {cfg : Config} (h : cfg.Wf) (buf : Nat) :
    decValue cfg (credentialValue buf) =
      (if cfg.fmt = 0 then buf % 2 ^ 26 else buf / 2 % 2 ^ 24) := by
  have hw : cfg.idw = 26 := h.idw_eq
  unfold decValue
  split_ifs
  · rw [dec0Value, hw, credentialValue, BitVec.toNat_ofNat]; omega
  · rw [dec1Value_eq, hw, credentialValue, BitVec.toNat_ofNat]; omega

/-- R75: the character of a code. -/
theorem digitChar_toNat (code : Nat) : (digitChar code).toNat = (code + 0x30) % 256 :=
  BitVec.toNat_ofNat _ _

/-- The character of a code of the width is one a passcode can hold. -/
theorem digitChar_isDigitChar {cfg : Config} {code : Nat} (h : code < 2 ^ cfg.keyw) :
    isDigitChar cfg (digitChar code) = true := by
  have : (digitChar code - 0x30#8).toNat = code % 256 := by
    rw [BitVec.toNat_sub, digitChar_toNat]; simp; omega
  simp only [isDigitChar, fits, this, decide_eq_true_eq]
  exact (Nat.mod_le _ _).trans_lt h

/-- A frame's button code has `KEYW` bits. -/
theorem buttonCode_lt (cfg : Config) (buf : Nat) : buttonCode cfg buf < 2 ^ cfg.keyw :=
  Nat.mod_lt _ (Nat.two_pow_pos _)

/-- R52: the index of a digit write is always a cell of the store. -/
theorem writeIndex_lt {cfg : Config} (h : cfg.Wf) (len : Nat) :
    writeIndex cfg len < cfg.pcap := by
  have := h.two_le_pcap
  unfold writeIndex
  split_ifs <;> omega

/-- Counting a character never overflows `len[c]`. -/
theorem writeIndex_add_one {cfg : Config} (h : cfg.Wf) (len : Nat) :
    (writeIndex cfg len + 1) % 2 ^ cfg.lenw = writeIndex cfg len + 1 := by
  have := writeIndex_lt h len
  have := h.pcap_lt
  exact Nat.mod_eq_of_lt (by omega)

/-! ### Tests -/

/-- R110 step 3, R112: the comparison is strict. -/
theorem quietOver_iff (cfg : Config) (nowUs : Nat) (k : Channel) :
    quietOver cfg nowUs k = true ↔ cfg.quietPeriodUs < elapsed cfg nowUs k.ts :=
  decide_eq_true_iff

/-- R138: the comparison is strict, and an empty session is never stale. -/
theorem stale_iff (cfg : Config) (nowMs : Nat) (k : Channel) :
    stale cfg nowMs k = true ↔
      k.len ≠ 0 ∧ cfg.buttonTimeoutMs < elapsed cfg nowMs k.last := by
  rw [stale, Channel.acc, Bool.and_eq_true, bne_iff_ne]
  exact and_congr_right fun _ => decide_eq_true_iff

/-- R144: what ENTER writes to `aux[c]` is about the first character of the passcode it emits. -/
theorem auxFlag_eq_head (k : Channel) :
    auxFlag k = decide (k.passcode.head? = some 0x38) := by
  unfold auxFlag Channel.passcode
  cases hl : k.len with
  | zero => simp
  | succ n =>
    simp only [List.range'_succ, List.map_cons, List.head?_cons, show 1 ≤ n + 1 by omega,
      decide_true, Bool.true_and, Option.some.injEq]
    rfl

/-! ### CAPTURE -/

/-- R100 on an open channel. -/
theorem captureBit_of_open {cfg : Config} {k : Channel} (h : k.frameOpen = true) (b : Bit) (us : Nat) :
    captureBit cfg b us k = { k with buf := shiftIn cfg k.buf b, cnt := satInc cfg k.cnt } := by
  simp [captureBit, h]

/-- R100 on an idle channel. -/
theorem captureBit_of_idle {cfg : Config} {k : Channel} (h : k.frameOpen = false) (b : Bit) (us : Nat) :
    captureBit cfg b us k =
      { k with frameOpen := true, buf := shiftIn cfg 0 b, cnt := satInc cfg 0, ts := us } := by
  simp [captureBit, h]

@[simp] theorem captureBit_frameOpen (cfg : Config) (b : Bit) (us : Nat) (k : Channel) :
    (captureBit cfg b us k).frameOpen = true := by
  cases h : k.frameOpen <;> simp [captureBit, h]
@[simp] theorem captureBit_dig (cfg : Config) (b : Bit) (us : Nat) (k : Channel) :
    (captureBit cfg b us k).dig = k.dig := by cases h : k.frameOpen <;> simp [captureBit, h]
@[simp] theorem captureBit_len (cfg : Config) (b : Bit) (us : Nat) (k : Channel) :
    (captureBit cfg b us k).len = k.len := by cases h : k.frameOpen <;> simp [captureBit, h]
@[simp] theorem captureBit_last (cfg : Config) (b : Bit) (us : Nat) (k : Channel) :
    (captureBit cfg b us k).last = k.last := by cases h : k.frameOpen <;> simp [captureBit, h]
@[simp] theorem captureBit_aux (cfg : Config) (b : Bit) (us : Nat) (k : Channel) :
    (captureBit cfg b us k).aux = k.aux := by cases h : k.frameOpen <;> simp [captureBit, h]

@[simp] theorem capture_chan (c : Chan) (b : Bit) (s : State) :
    (capture c b s).chan c = captureBit s.cfg b s.nowUs (s.chan c) := by simp [capture]
@[simp] theorem capture_chan_of_ne {c d : Chan} (h : d ≠ c) (b : Bit) (s : State) :
    (capture c b s).chan d = s.chan d := by simp [capture, h]
@[simp] theorem capture_out (c : Chan) (b : Bit) (s : State) : (capture c b s).out = s.out := by
  simp [capture]
@[simp] theorem capture_cfg (c : Chan) (b : Bit) (s : State) : (capture c b s).cfg = s.cfg := by
  simp [capture]
@[simp] theorem capture_input (c : Chan) (b : Bit) (s : State) :
    (capture c b s).input = s.input := by simp [capture]

/-! ### The digit store -/

/-- A string inside the store is its cells in index order. -/
theorem digString_ok (cfg : Config) (c : Chan) (m : Memory) (n i : Nat) (h : i + n ≤ cfg.pcap) :
    digString cfg c m i n = .ok ((List.range' i n).map (Memory.read m)) := by
  induction n generalizing i with
  | zero => rfl
  | succ n ih => simp [digString, digRead, show i < cfg.pcap by omega, ih (i + 1) (by omega),
      List.range'_succ]

/-- A string is read or a cell is missing; nothing else can happen. -/
theorem digString_cases (cfg : Config) (c : Chan) (m : Memory) (n i : Nat) :
    digString cfg c m i n = .ok ((List.range' i n).map (Memory.read m)) ∨
      ∃ j, digString cfg c m i n = .error (.noSuchDigitCell c j) := by
  induction n generalizing i with
  | zero => exact .inl rfl
  | succ n ih =>
    by_cases h : i < cfg.pcap
    · rcases ih (i + 1) with h' | ⟨j, h'⟩
      · left; simp [digString, digRead, h, h', List.range'_succ]
      · right; exact ⟨j, by simp [digString, digRead, h, h']⟩
    · right; exact ⟨i, by simp [digString, digRead, h]⟩

/-! ### The buttons -/

/-- R144: what ENTER does, whenever the session lies in the store. -/
theorem enter_next {c : Chan} {s : State} (h : (s.chan c).len ≤ s.cfg.pcap) :
    enter c s = .next ((s.emit (.pass (s.chan c).passcode c)).setChan c
      { s.chan c with aux := auxFlag (s.chan c), len := 0 }) := by
  have hs := digString_ok s.cfg c (s.chan c).dig (s.chan c).len 0 (by omega)
  simp only [enter, hs]
  rfl

/-- Everything ENTER can do. -/
theorem enter_cases (c : Chan) (s : State) :
    enter c s = .next ((s.emit (.pass (s.chan c).passcode c)).setChan c
      { s.chan c with aux := auxFlag (s.chan c), len := 0 }) ∨
    ∃ j, enter c s = .fault (.noSuchDigitCell c j) := by
  rcases digString_cases s.cfg c (s.chan c).dig (s.chan c).len 0 with h | ⟨j, h⟩
  · left; simp only [enter, h]; rfl
  · right; exact ⟨j, by simp only [enter, h]⟩

/-- R146: the channel after a digit. -/
def appendChannel (cfg : Config) (code : Nat) (k : Channel) : Channel :=
  { k with
    dig := Memory.write k.dig (writeIndex cfg k.len) (digitChar code)
    len := (writeIndex cfg k.len + 1) % 2 ^ cfg.lenw }

/-- R146: what a digit does, for every admissible capacity. -/
theorem appendDigit_next {s : State} (h : s.cfg.Wf) (c : Chan) (code : Nat) :
    appendDigit c code s = .next (s.setChan c (appendChannel s.cfg code (s.chan c))) := by
  simp only [appendDigit, digWrite, writeIndex_lt h, if_true]
  rfl

/-- Everything a digit can do. -/
theorem appendDigit_cases (c : Chan) (code : Nat) (s : State) :
    appendDigit c code s = .next (s.setChan c (appendChannel s.cfg code (s.chan c))) ∨
    ∃ j, appendDigit c code s = .fault (.noSuchDigitCell c j) := by
  by_cases h : (writeIndex s.cfg (s.chan c).len) < s.cfg.pcap
  · left; simp only [appendDigit, digWrite, h, if_true]; rfl
  · right
    exact ⟨(writeIndex s.cfg (s.chan c).len), by simp only [appendDigit, digWrite, h, if_false]⟩

@[simp] theorem dropStale_chan (c : Chan) (s : State) : (dropStale c s).chan c =
    if stale s.cfg s.nowMs (s.chan c) then { s.chan c with len := 0 } else s.chan c := by
  unfold dropStale; split_ifs <;> simp
@[simp] theorem dropStale_chan_of_ne {c d : Chan} (h : d ≠ c) (s : State) :
    (dropStale c s).chan d = s.chan d := by unfold dropStale; split_ifs <;> simp [h]
@[simp] theorem dropStale_out (c : Chan) (s : State) : (dropStale c s).out = s.out := by
  unfold dropStale; split_ifs <;> simp
@[simp] theorem dropStale_cfg (c : Chan) (s : State) : (dropStale c s).cfg = s.cfg := by
  unfold dropStale; split_ifs <;> simp
@[simp] theorem dropStale_nowUs (c : Chan) (s : State) : (dropStale c s).nowUs = s.nowUs := by
  unfold dropStale; split_ifs <;> simp
@[simp] theorem dropStale_nowMs (c : Chan) (s : State) : (dropStale c s).nowMs = s.nowMs := by
  unfold dropStale; split_ifs <;> simp
@[simp] theorem dropStale_input (c : Chan) (s : State) : (dropStale c s).input = s.input := by
  unfold dropStale; split_ifs <;> simp
@[simp] theorem dropStale_ret (c : Chan) (s : State) : (dropStale c s).ret = s.ret := by
  unfold dropStale; split_ifs <;> simp

/-- Staleness only shortens the session. -/
theorem dropStale_len_le (c : Chan) (s : State) :
    ((dropStale c s).chan c).len ≤ (s.chan c).len := by
  rw [dropStale_chan]; split_ifs <;> simp

/-- Everything a button can do (R136): one of its three actions on the session that staleness leaves,
then the timestamp; or a missing cell. -/
theorem keyButton_cases (c : Chan) (code : Nat) (s : State) :
    (code = s.cfg.keyEsc ∧
      keyButton c code s = .next (stampLast c (escape c (dropStale c s)))) ∨
    (code ≠ s.cfg.keyEsc ∧ code = s.cfg.keyEnt ∧
      keyButton c code s = .next (stampLast c
        (((dropStale c s).emit (.pass ((dropStale c s).chan c).passcode c)).setChan c
          { (dropStale c s).chan c with
            aux := auxFlag ((dropStale c s).chan c), len := 0 }))) ∨
    (code ≠ s.cfg.keyEsc ∧ code ≠ s.cfg.keyEnt ∧
      keyButton c code s = .next (stampLast c
        ((dropStale c s).setChan c (appendChannel s.cfg code ((dropStale c s).chan c))))) ∨
    ∃ j, keyButton c code s = .fault (.noSuchDigitCell c j) := by
  unfold keyButton buttonAction
  rw [dropStale_cfg]
  by_cases he : code = s.cfg.keyEsc
  · left; exact ⟨he, by rw [if_pos he]; rfl⟩
  · by_cases hn : code = s.cfg.keyEnt
    · rw [if_neg he, if_pos hn]
      rcases enter_cases c (dropStale c s) with h | ⟨j, h⟩
      · right; left; exact ⟨he, hn, by rw [h]; rfl⟩
      · right; right; right; exact ⟨j, by rw [h]; rfl⟩
    · rw [if_neg he, if_neg hn]
      rcases appendDigit_cases c code (dropStale c s) with h | ⟨j, h⟩
      · right; right; left; exact ⟨he, hn, by rw [h]; simp [dropStale_cfg]⟩
      · right; right; right; exact ⟨j, by rw [h]; rfl⟩

/-- A button never stops a machine whose session lies in the store. -/
theorem keyButton_next {c : Chan} {code : Nat} {s : State} (hc : s.cfg.Wf)
    (h : (s.chan c).len ≤ s.cfg.pcap) : ∃ t, keyButton c code s = .next t := by
  unfold keyButton buttonAction
  split_ifs
  · exact ⟨_, rfl⟩
  · rw [enter_next (by rw [dropStale_cfg]; exact (dropStale_len_le c s).trans h)]
    exact ⟨_, rfl⟩
  · rw [appendDigit_next (by rw [dropStale_cfg]; exact hc)]
    exact ⟨_, rfl⟩

/-! ### The poll -/

/-- Everything a poll can do (R110): nothing before the deadline; a credential; a button. -/
theorem pollChannel_cases (c : Chan) (s : State) :
    (((s.chan c).frameOpen = false ∨ quietOver s.cfg s.nowUs (s.chan c) = false) ∧
      pollChannel c s = .next s) ∨
    ((s.chan c).frameOpen = true ∧ quietOver s.cfg s.nowUs (s.chan c) = true ∧
      (s.chan c).cnt = credentialWidth ∧ pollChannel c s = .next ((closeFrame c s).emit
        (.cred (decValue s.cfg (credentialValue (s.chan c).buf)) c))) ∨
    ((s.chan c).frameOpen = true ∧ quietOver s.cfg s.nowUs (s.chan c) = true ∧
      (s.chan c).cnt ≠ credentialWidth ∧
      pollChannel c s = keyButton c (buttonCode s.cfg (s.chan c).buf) (closeFrame c s)) := by
  unfold pollChannel
  cases ho : (s.chan c).frameOpen <;> cases hq : quietOver s.cfg s.nowUs (s.chan c) <;>
    simp only [Bool.and_true, Bool.and_false, Bool.false_eq_true, if_false, if_true]
  · exact .inl ⟨.inl trivial, trivial⟩
  · exact .inl ⟨.inl trivial, trivial⟩
  · exact .inl ⟨.inr trivial, trivial⟩
  · right
    by_cases h : (s.chan c).cnt = credentialWidth
    · left
      exact ⟨trivial, trivial, h, by simp [closeAndClassify, isCredential, h, credentialFrame]⟩
    · right
      exact ⟨trivial, trivial, h, by simp [closeAndClassify, isCredential, h, keypadFrame]⟩

/-! ### The step -/

/-- What can be applied by itself, by the format of its row (R80, R82). -/
theorem schedulable_iff (i : Instr) :
    i.schedulable = true ↔ i.format = .opbyte ∨ i.format = .line := by
  simp [Instr.schedulable, Instr.isEnvironment]

/-- A record that names an operation which can be applied by itself runs it. -/
theorem step_of_schedulable {s : State} {r : Record} {rest : List Record} {i : Instr}
    (h : s.input = r :: rest) (hd : decodeRecord s.cfg r = .ok i) (hi : i.schedulable = true) :
    step s = exec i (applyRecord r rest s) := by
  simp only [step, h, hd, hi, if_true]

/-- Everything a step can do. -/
theorem step_cases (s : State) :
    (s.input = [] ∧ step s = .next s) ∨
    ∃ r rest, s.input = r :: rest ∧
      ((∃ e, decodeRecord s.cfg r = .error e ∧ step s = .refused (.undecodable e)) ∨
      ∃ i, decodeRecord s.cfg r = .ok i ∧
        ((i.schedulable = true ∧ step s = exec i (applyRecord r rest s)) ∨
        (i.schedulable = false ∧ step s = .refused (.notSchedulable i)))) := by
  cases hin : s.input with
  | nil => exact .inl ⟨rfl, by simp [step, hin]⟩
  | cons r rest =>
    right
    refine ⟨r, rest, rfl, ?_⟩
    cases hd : decodeRecord s.cfg r with
    | error e => exact .inl ⟨e, rfl, by simp [step, hin, hd]⟩
    | ok i =>
      right
      refine ⟨i, rfl, ?_⟩
      cases hi : i.schedulable
      · exact .inr ⟨rfl, by simp [step, hin, hd, hi]⟩
      · exact .inl ⟨rfl, step_of_schedulable hin hd hi⟩

end Sys2Proof.Machine
end

