-- ==== Sys2Proof/Laws/PerInstr.lean ====
section
/-! SUPPORT. What is said of each operation as syntax: its encoding lies in its row of
spec/opcode_table.json. -/

namespace Sys2Proof.Laws.TableMatch

/-- The first byte of the encoding has the row's pattern under the row's mask, the row is of the
operation's format, and nothing is encoded as no bytes at all. -/
def Statement (i : Instr) : Prop :=
  i.row.format = i.format ∧ ∃ b rest, encode Config.default i = b :: rest ∧
    b.setWidth 32 &&& i.row.mask = i.row.pattern

theorem edge0 (c : Chan) : Statement (.edge0 c) := ⟨rfl, _, _, rfl, by cases c <;> rfl⟩
theorem edge1 (c : Chan) : Statement (.edge1 c) := ⟨rfl, _, _, rfl, by cases c <;> rfl⟩
theorem poll (c : Chan) : Statement (.poll c) := ⟨rfl, _, _, rfl, by cases c <;> rfl⟩
theorem pollall : Statement .pollall := ⟨rfl, _, _, rfl, rfl⟩
theorem reset : Statement .reset := ⟨rfl, _, _, rfl, rfl⟩
theorem dec0 (v : RawFrame) : Statement (.dec0 v) :=
  ⟨rfl, _, _, rfl, by dsimp only [Instr.row, Config.default]; decide⟩
theorem dec1 (v : RawFrame) : Statement (.dec1 v) :=
  ⟨rfl, _, _, rfl, by dsimp only [Instr.row, Config.default]; decide⟩
theorem w26 (c : Chan) (l : Bit) (id : Payload) (t : Bit) : Statement (.w26 c l id t) :=
  ⟨rfl, _, _, rfl, by simp [Instr.row]⟩
theorem wkey (c : Chan) (v : Nat) : Statement (.wkey c v) :=
  ⟨rfl, _, _, rfl, by simp [Instr.row]⟩
theorem key (c : Chan) (code : Nat) : Statement (.key c code) :=
  ⟨rfl, _, _, rfl, by simp [Instr.row]⟩
theorem kesc (c : Chan) : Statement (.kesc c) :=
  ⟨rfl, _, _, rfl, by dsimp only [Instr.row, Config.default]; decide⟩
theorem kent (c : Chan) : Statement (.kent c) :=
  ⟨rfl, _, _, rfl, by dsimp only [Instr.row, Config.default]; decide⟩
theorem kdigit (c : Chan) (code : Nat) : Statement (.kdigit c code) :=
  ⟨rfl, _, _, rfl, by simp [Instr.row]⟩
theorem rptf (id : Nat) (ch : Chan) : Statement (.rptf id ch) :=
  ⟨rfl, _, _, rfl, by dsimp only [Instr.row, Config.default]; decide⟩
theorem rptp (digits : List Byte) (ch : Chan) : Statement (.rptp digits ch) :=
  ⟨rfl, _, _, rfl, by dsimp only [Instr.row, Config.default]; decide⟩

end Sys2Proof.Laws.TableMatch
end

