-- ==== Sys2Proof/Tests/Slice0.lean ====
section
/-! SUPPORT. Tests with results from spec/95_test_vectors.md (the rows are named), the smoke test of
the well-formedness checks, words written out from the spec's encodings, and one witness for the
hypotheses of each obligation that has any. -/

namespace Sys2Proof.Tests

-- The tests are elaborated one after another: in parallel they exceed the memory limit.
set_option Elab.async false

open Sys2Proof Sys2Proof.Machine

/-! ### Helpers -/

/-- A channel with a frame in progress. -/
def capturing (buf : Nat) (cnt : Nat) (ts : Nat) : Channel :=
  { Channel.reset with frameOpen := true, buf := buf, cnt := cnt, ts := ts }

/-- The cells of a text from an index on. -/
def cellsFrom : Nat → List Byte → Memory
  | _, [] => []
  | i, b :: bs => (i, b) :: cellsFrom (i + 1) bs

/-- A channel whose session holds a text. -/
def session (text : List Byte) (last : Nat) (aux : Bool) : Channel :=
  { Channel.reset with
    dig := cellsFrom 0 text, len := text.length, last := last, aux := aux }

/-- A channel with a session and a frame in progress. -/
def busy (text : List Byte) (last : Nat) (buf : Nat) (cnt : Nat) (ts : Nat) :
    Channel :=
  { session text last false with frameOpen := true, buf := buf, cnt := cnt, ts := ts }

/-- A unit with the given channels and clock samples. -/
def unitWith (k1 k2 : Channel) (us ms : Nat) : State :=
  { State.reset with ch1 := k1, ch2 := k2, nowUs := us, nowMs := ms }

/-- The unit of `s` with another decode format. -/
def withFmt (fmt : Bit) (s : State) : State := { s with cfg := { s.cfg with fmt := fmt } }

/-- Eighteen and nineteen characters (V-KEY rows 17 and 18). -/
def text18 : List Byte := [0x31, 0x32, 0x33, 0x34, 0x35, 0x36, 0x37, 0x38, 0x39, 0x30,
  0x31, 0x32, 0x33, 0x34, 0x35, 0x36, 0x37, 0x38]
def text19 : List Byte := text18 ++ [0x39]

/-- A property of the next state of an answer; false where there is none. -/
def holds (a : Answer) (p : State → Bool) : Bool := (nextState a).any p

theorem exists_next_of_holds {a : Answer} {p : State → Bool} (h : holds a p = true) :
    ∃ t, a = .next t ∧ p t = true := by
  cases a with
  | next s => exact ⟨s, rfl, h⟩
  | fault f => cases h
  | refused r => cases h

theorem exists_next {a : Answer} (h : holds a (fun _ => true) = true) : ∃ t, a = .next t :=
  let ⟨t, ht, _⟩ := exists_next_of_holds h
  ⟨t, ht⟩

theorem default_wf : Config.default.Wf := by constructor <;> decide

/-- The invariant of a channel as a test. -/
def channelOk (cfg : Config) (k : Channel) : Bool :=
  (k.frameOpen || (k.buf == 0 && k.cnt == 0)) && (!k.frameOpen || decide (1 ≤ k.cnt)) &&
  (decide (¬ (k.cnt < 2 ^ cfg.cntw - 1 ∧ k.cnt ≤ cfg.bufw)) || decide (k.buf < 2 ^ k.cnt)) &&
  decide (k.buf < 2 ^ cfg.bufw) && decide (k.cnt < 2 ^ cfg.cntw) &&
  decide (k.ts < 2 ^ cfg.tsw) && decide (k.last < 2 ^ cfg.tsw) &&
  Memory.wf k.dig && Memory.below cfg.pcap k.dig && decide (k.len ≤ cfg.pcap) &&
  (List.range k.len).all fun i => isDigitChar cfg (Memory.read k.dig i)

theorem channel_inv {cfg : Config} {k : Channel} (h : channelOk cfg k = true) : k.Inv cfg := by
  simp only [channelOk, Bool.and_eq_true, Bool.or_eq_true, beq_iff_eq, Bool.not_eq_true',
    decide_eq_true_iff, List.all_eq_true, List.mem_range] at h
  obtain ⟨⟨⟨⟨⟨⟨⟨⟨⟨⟨h1, h2⟩, h3⟩, b1⟩, b2⟩, b3⟩, b4⟩, h4⟩, h5⟩, h6⟩, h7⟩ := h
  refine ⟨fun ho => ?_, fun ho => ?_, fun ho => ?_, fun ha hb => ?_, b1, b2, b3, b4, h4, h5, h6, h7⟩
  · exact (h1.resolve_left (by simp [ho])).1
  · exact (h1.resolve_left (by simp [ho])).2
  · exact h2.resolve_left (by simp [ho])
  · exact h3.resolve_left (fun h => h ⟨ha, hb⟩)

/-- The invariant of a unit whose log is empty and whose parameters are the defaults. -/
theorem unit_inv {k1 k2 : Channel} {us ms : Nat} (h1 : channelOk Config.default k1 = true)
    (h2 : channelOk Config.default k2 = true) (hu : us < 2 ^ 32 := by decide)
    (hm : ms < 2 ^ 32 := by decide) : (unitWith k1 k2 us ms).Inv :=
  ⟨default_wf, channel_inv h1, channel_inv h2, hu, hm, fun _ he => by cases he⟩

/-! ### Well-formedness: each check refuses an ill-formed term, and so does the decoder -/

theorem test_kdigit_refuses_escape :
    (Instr.kdigit .ch1 10).wellFormed Config.default = false := by decide
theorem test_kdigit_refuses_enter :
    (Instr.kdigit .ch2 11).wellFormed Config.default = false := by decide
theorem test_kdigit_refuses_wide_code :
    (Instr.kdigit .ch1 16).wellFormed Config.default = false := by decide
theorem test_key_refuses_wide_code :
    (Instr.key .ch2 16).wellFormed Config.default = false := by decide
theorem test_wkey_refuses_wide_value :
    (Instr.wkey .ch1 (2 ^ 32)).wellFormed Config.default = false := by decide
theorem test_rptf_refuses_wide_id :
    (Instr.rptf (2 ^ 26) .ch1).wellFormed Config.default = false := by decide
theorem test_rptp_refuses_twenty_characters :
    (Instr.rptp (text19 ++ [0x31]) .ch1).wellFormed Config.default = false := by decide
theorem test_rptp_refuses_comma :
    (Instr.rptp [0x31, 0x2C] .ch1).wellFormed Config.default = false := by decide
theorem test_rptp_refuses_at_sign :
    (Instr.rptp [0x40] .ch1).wellFormed Config.default = false := by decide
theorem test_kdigit_escape_bytes_are_kesc : decode Config.default .button
    (encode Config.default (.kdigit .ch1 10)) = .ok (.kesc .ch1) := by decide
theorem test_long_rptp_does_not_decode : decode Config.default .line
    (encode Config.default (.rptp (text19 ++ [0x31]) .ch1)) =
      .error (.badDigits (text19 ++ [0x31])) := by decide
theorem test_wide_code_does_not_decode : decode Config.default .internal [16, 0] =
    .error (.valueTooWide 4 16) := by decide

/-! ### Words written out from the spec's encodings -/

/-- R85: `0001 00 0 0`. -/
theorem test_decode_edge0 : decode Config.default .opbyte [0b00010000] = .ok (.edge0 .ch1) := by
  decide
/-- R85: `0001 00 1 1`. -/
theorem test_decode_edge1 : decode Config.default .opbyte [0b00010011] = .ok (.edge1 .ch2) := by
  decide
/-- R85: `0010 00 1 0`. -/
theorem test_decode_poll : decode Config.default .opbyte [0b00100010] = .ok (.poll .ch2) := by
  decide
theorem test_decode_pollall : decode Config.default .opbyte [0b00110000] = .ok .pollall := by
  decide
theorem test_decode_reset : decode Config.default .opbyte [0b11110000] = .ok .reset := by decide
/-- R85: bits 3:2 are zero, a poll has no bit value, POLLALL has no channel. -/
theorem test_decode_reserved : decode Config.default .opbyte [0b00010100] =
      .error (.reservedOpByte 0x14) ∧
    decode Config.default .opbyte [0b00100001] = .error (.reservedOpByte 0x21) ∧
    decode Config.default .opbyte [0b00110010] = .error (.reservedOpByte 0x32) := by decide
theorem test_decode_dec0 : decode Config.default .fmt [0, 0xFF, 0xFF, 0xFF, 0x03] =
    .ok (.dec0 0x3FFFFFF) := by decide
theorem test_decode_dec1 : decode Config.default .fmt [1, 0x0A, 0, 0, 0x02] =
    .ok (.dec1 0x200000A) := by decide
/-- R78: there is no format 2; a 26-bit value has no bit 26. -/
theorem test_decode_fmt_reserved : decode Config.default .fmt [2, 0, 0, 0, 0] =
      .error (.reservedFormat 2) ∧
    decode Config.default .fmt [1, 0, 0, 0, 4] = .error (.valueTooWide 26 0x4000000) := by decide
/-- R73 on V-DEC row 11: L = 1, id = 0xABCDEF, T = 0 is 0x3579BDE. -/
theorem test_decode_w26 : decode Config.default .frame26 [0xDE, 0x9B, 0x57, 0x03, 1] =
    .ok (.w26 .ch2 1 0xABCDEF 0) := by decide
theorem test_decode_wkey : decode Config.default .framekey [0x17, 0, 0, 0, 0] =
    .ok (.wkey .ch1 0x17) := by decide
theorem test_decode_key : decode Config.default .internal [0x0A, 1] = .ok (.key .ch2 10) := by
  decide
theorem test_decode_kesc : decode Config.default .button [0b1010, 1] = .ok (.kesc .ch2) := by
  decide
theorem test_decode_kent : decode Config.default .button [0b1011, 0] = .ok (.kent .ch1) := by
  decide
theorem test_decode_kdigit : decode Config.default .button [0b1111, 0] =
    .ok (.kdigit .ch1 15) := by decide
theorem test_decode_rptf : decode Config.default .line [0x46, 1, 0xFF, 0xFF, 0xFF, 0] =
    .ok (.rptf 16777215 .ch2) := by decide
theorem test_decode_rptp : decode Config.default .line [0x50, 0, 0x3F, 0x30] =
    .ok (.rptp [0x3F, 0x30] .ch1) := by decide
/-- R166: the 'G' line is not the unit's. -/
theorem test_decode_line_reserved : decode Config.default .line [0x47, 0] =
    .error (.reservedLine 0x47) := by decide

/-- The five operation-byte rows of the table share no word. -/
theorem test_opbyte_rows_disjoint :
    [(Instr.edge0 .ch1).row, (Instr.edge1 .ch1).row, (Instr.poll .ch1).row, Instr.pollall.row,
      Instr.reset.row].Pairwise fun a b =>
        a.pattern &&& (a.mask &&& b.mask) ≠ b.pattern &&& (a.mask &&& b.mask) := by decide

/-- The table's own words, read without a format (log 4). -/
theorem test_table_words :
    decodeTableWord 8 0x10 = some (.edge0 .ch1) ∧ decodeTableWord 8 0x13 = some (.edge1 .ch2) ∧
    decodeTableWord 8 0x20 = some (.poll .ch1) ∧ decodeTableWord 8 0x30 = some .pollall ∧
    decodeTableWord 8 0xF0 = some .reset ∧ decodeTableWord 8 0 = some (.dec0 0) ∧
    decodeTableWord 8 1 = some (.dec1 0) ∧ decodeTableWord 8 0xA = some (.kesc .ch1) ∧
    decodeTableWord 8 0xB = some (.kent .ch1) ∧ decodeTableWord 8 0xF = some (.kdigit .ch1 15) ∧
    decodeTableWord 8 0x46 = some (.rptf 0 .ch1) ∧ decodeTableWord 8 0x50 = some (.rptp [] .ch1) ∧
    decodeTableWord 32 0 = some (.w26 .ch1 0 0 0) ∧ decodeTableWord 8 0x14 = none := by decide

/-- A word placed by `withFetchWord` is what the very next step runs: an edge, a line, and, inside the
poll of its frame, a decoder and a button. -/
theorem test_fetch_word_runs :
    holds (step (State.reset.withFetchWord 8 0x11)) (fun t => t.ch1 == capturing 1 1 0) = true ∧
    holds (step (State.reset.withFetchWord 8 0x46))
      (fun t => t.ret == .line [0x46, 0x30, 0x2C, 0x31, 0x0A]) = true ∧
    holds (step (State.reset.withFetchWord 8 0)) (fun t => t.out == [.cred 0 .ch1]) = true ∧
    holds (step (State.reset.withFetchWord 8 0xF))
      (fun t => t.ch1.passcode == [0x3F] && !t.ch1.frameOpen) = true := by decide +kernel

/-- R82: the environment cannot apply an internal operation by itself. -/
theorem test_internal_record_refused :
    step (State.reset.load [⟨.internal, [7, 1], 0, 0⟩]) = .refused (.notSchedulable (.key .ch2 7)) ∧
    step (State.reset.load [⟨.button, [10, 0], 0, 0⟩]) =
      .refused (.notSchedulable (.kesc .ch1)) := ⟨rfl, rfl⟩

/-- R7: another width is another unit: 26 bits of shift register lose the first of 27. -/
theorem test_narrow_shift_register :
    shiftIn { Config.default with bufw := 26 } 0x2000001 1 = 3 ∧
    shiftIn Config.default 0x2000001 1 = 0x4000003 := by decide +kernel

/-! ### One step each -/

/-- V-EDGE row 1. -/
theorem test_edge0_opens : holds (exec (.edge0 .ch1) (unitWith Channel.reset Channel.reset 5000 5))
    (fun t => t.ch1 == capturing 0 1 5000 && t.ch2 == Channel.reset) = true := by decide +kernel
/-- V-EDGE row 9. -/
theorem test_edge0_loses_top_bit : holds
    (exec (.edge0 .ch1) (unitWith (capturing 0x80000000 32 0) Channel.reset 1 0))
    (fun t => t.ch1 == capturing 0 33 0) = true := by decide +kernel
/-- V-EDGE row 3. -/
theorem test_edge1_overwrites_old_ts : holds
    (exec (.edge1 .ch2) (unitWith Channel.reset { Channel.reset with ts := 1234 } 9000 9))
    (fun t => t.ch2 == capturing 1 1 9000) = true := by decide +kernel
/-- V-EDGE row 11. -/
theorem test_edge1_saturates : holds
    (exec (.edge1 .ch1) (unitWith (capturing 0x80000001 255 0) Channel.reset 1 0))
    (fun t => t.ch1 == capturing 3 255 0) = true := by decide +kernel
/-- V-POLL row 3: 75000 is not yet over. -/
theorem test_poll_at_deadline : holds
    (exec (.poll .ch1) (unitWith (capturing 11 26 1000) Channel.reset 76000 76))
    (fun t => t.ch1 == capturing 11 26 1000 && t.out == []) = true := by decide +kernel
/-- V-POLL row 12: 75001 across the wrap of the clock. -/
theorem test_poll_closes_across_wrap : holds
    (exec (.poll .ch1) (unitWith (capturing 11 26 0xFFFFF000) Channel.reset 70905 0))
    (fun t => t.ch1 == { Channel.reset with ts := 0xFFFFF000 } && t.out == [.cred 5 .ch1]) =
      true := by decide +kernel
/-- V-POLL row 13. -/
theorem test_pollall_order : holds
    (exec .pollall (unitWith (capturing 11 26 0) (capturing 13 26 0) 80000 80))
    (fun t => t.out == [.cred 5 .ch1, .cred 6 .ch2]) = true := by decide +kernel
/-- V-POLL row 14. -/
theorem test_pollall_leaves_younger_frame : holds
    (exec .pollall (unitWith (capturing 11 26 1000) (capturing 3 4 2000) 76500 76))
    (fun t => t.out == [.cred 5 .ch1] && t.ch2 == capturing 3 4 2000) = true := by decide +kernel
/-- V-RESET rows 1 and 4. -/
theorem test_reset_clears_and_keeps_fmt : holds
    (exec .reset { withFmt 0 (unitWith (capturing 5 13 7) (session [0x31, 0x32] 9 true) 0 0) with
      out := [.cred 5 .ch1] })
    (fun t => t.ch1 == Channel.reset && t.ch2 == Channel.reset && t.out == [] && t.cfg.fmt == 0) =
      true := by decide +kernel
/-- V-DEC row 3. -/
theorem test_dec0_keeps_parity : holds (exec (.dec0 0x2000000) State.reset)
    (fun t => t.ret == .id 33554432) = true := by decide +kernel
/-- V-DEC row 11. -/
theorem test_dec1_strips_parity : holds (exec (.dec1 0x3579BDE) State.reset)
    (fun t => t.ret == .id 11259375) = true := by decide +kernel
/-- V-DEC row 8 and V-POLL row 5. -/
theorem test_w26_formats :
    holds (exec (.w26 .ch1 1 5 1) State.reset) (fun t => t.out == [.cred 5 .ch1]) = true ∧
    holds (exec (.w26 .ch1 1 5 1) (withFmt 0 State.reset))
      (fun t => t.out == [.cred 33554443 .ch1]) = true := by decide +kernel
/-- V-POLL row 8: 0x17 is button 7. -/
theorem test_wkey_takes_low_nibble : holds
    (exec (.wkey .ch1 0x17) (unitWith Channel.reset Channel.reset 80000 80))
    (fun t => t.ch1 == session [0x37] 80 false) = true := by decide +kernel
/-- V-KEY row 11. -/
theorem test_key_stale_digit : holds
    (exec (.key .ch1 3) (unitWith (session [0x31, 0x32] 500 false) Channel.reset 0 2501))
    (fun t => t.ch1.passcode == [0x33] && t.ch1.last == 2501 && t.out == []) = true := by
  decide +kernel
/-- V-KEY row 15. -/
theorem test_key_gap_across_wrap : holds
    (exec (.key .ch1 3) (unitWith (session [0x31, 0x32] 0xFFFFFF00 false) Channel.reset 0 0x6CF))
    (fun t => t.ch1 == session [0x31, 0x32, 0x33] 0x6CF false) = true := by decide +kernel
/-- V-KEY row 3, without the timestamp, which is KEY's. -/
theorem test_kesc_discards : holds
    (exec (.kesc .ch1) (unitWith (session [0x30, 0x39] 20 true) Channel.reset 0 30))
    (fun t => t.ch1.passcode == [] && t.ch1.last == 20 && t.ch1.aux && t.out == []) = true := by
  decide +kernel
/-- V-KEY row 9. -/
theorem test_kent_asserts_aux : holds
    (exec (.kent .ch2) (unitWith Channel.reset (session [0x38, 0x30] 0 false) 0 100))
    (fun t => t.ch2.aux && !t.ch1.aux && t.ch2.len == 0 && t.out == [.pass [0x38, 0x30] .ch2]) =
      true := by decide +kernel
/-- V-KEY row 8. -/
theorem test_kent_tests_first_only : holds
    (exec (.kent .ch1) (unitWith (session [0x31, 0x38] 0 true) Channel.reset 0 100))
    (fun t => !t.ch1.aux && t.out == [.pass [0x31, 0x38] .ch1]) = true := by decide +kernel
/-- V-KEY row 17. -/
theorem test_kdigit_fills : holds
    (exec (.kdigit .ch1 9) (unitWith (session text18 0 false) Channel.reset 0 1))
    (fun t => t.ch1 == session text19 0 false) = true := by decide +kernel
/-- V-KEY row 18. -/
theorem test_kdigit_wraps_to_one : holds
    (exec (.kdigit .ch1 0) (unitWith (session text19 0 false) Channel.reset 0 2))
    (fun t => t.ch1.passcode == [0x31, 0x30] && Memory.read t.ch1.dig 18 == 0x39) = true := by
  decide +kernel
/-- V-RPT rows 2 and 4. -/
theorem test_rptf_lines :
    holds (exec (.rptf 0 .ch2) State.reset)
      (fun t => t.ret == .line [0x46, 0x30, 0x2C, 0x32, 0x0A]) = true ∧
    holds (exec (.rptf 67108863 .ch1) State.reset) (fun t => t.ret ==
      .line [0x46, 0x36, 0x37, 0x31, 0x30, 0x38, 0x38, 0x36, 0x33, 0x2C, 0x31, 0x0A]) = true := by
  decide +kernel
/-- V-RPT rows 6 and 7. -/
theorem test_rptp_lines :
    holds (exec (.rptp [] .ch1) State.reset)
      (fun t => t.ret == .line [0x50, 0x2C, 0x31, 0x0A]) = true ∧
    holds (exec (.rptp [0x3C, 0x3D, 0x3E, 0x3F] .ch2) State.reset) (fun t => t.ret ==
      .line [0x50, 0x3C, 0x3D, 0x3E, 0x3F, 0x2C, 0x32, 0x0A]) = true := by decide +kernel
/-- R84: CARD expands as program P1 says. -/
theorem test_card_trace_of_P1 : (cardTrace Config.default .ch1 0 5 1 1000 2000).map
    (fun r => r.bytes) = List.replicate 22 [0x10] ++ [[0x11], [0x10], [0x11], [0x11]] := by
  decide +kernel
/-- R87: a strobe of each kind; both polls are POLLALL. -/
theorem test_strobes : strobeOps ⟨false, true, false, false, true, true, true⟩ =
    [.edge0 .ch1, .edge1 .ch2, .pollall] ∧
    eventPort Config.default (.pass [0x38] .ch2) = ⟨1, 1, none, some 1, [0x38]⟩ := by decide

/-! ### Witnesses: states and operands that meet the hypotheses of the obligations -/

/-- Channel 1 with a card frame, channel 2 idle, one microsecond over the quiet period. -/
def cardOver : State := unitWith (capturing 11 26 1000) Channel.reset 76001 76
/-- The same frame at the quiet period exactly. -/
def cardAt : State := unitWith (capturing 11 26 1000) Channel.reset 76000 76
/-- A session of two characters and a button frame of one nibble, over the quiet period. -/
def buttonOver (code : Nat) : State := unitWith (busy [0x38, 0x32] 70 code 4 0) Channel.reset
  75001 75

theorem cardOver_inv : cardOver.Inv := unit_inv (by decide +kernel) (by decide +kernel)
theorem cardAt_inv : cardAt.Inv := unit_inv (by decide +kernel) (by decide +kernel)
theorem reset_inv : State.reset.Inv :=
  unit_inv (k1 := Channel.reset) (k2 := Channel.reset) (by decide +kernel) (by decide +kernel)

/-- Reserved bytes next to defined ones. -/
theorem witness_OperationByteNamesEightOperations :
    (State.reset.load [traceRecord 0x14 5 6]).input = traceRecord 0x14 5 6 :: [] ∧
    (∀ b ∈ [0x14, 0x0F, 0x21, 0x23, 0x31, 0x32, 0xF1, 0xFF],
      (b : Byte) ∉ [0x10, 0x11, 0x12, 0x13, 0x20, 0x22, 0x30, 0xF0]) := by decide

theorem witness_OnlyDecodeFormatsZeroAndOne :
    (State.reset.load [⟨.fmt, [2, 0, 0, 0, 0], 0, 0⟩]).input =
      ⟨.fmt, [2, 0, 0, 0, 0], 0, 0⟩ :: [] ∧ 2 ≤ (2 : Byte).toNat := by decide

theorem witness_DecodeReadsBackEncode : Config.default.Wf ∧
    (Instr.rptp text19 .ch2).wellFormed Config.default = true ∧
    (Instr.kdigit .ch2 12).wellFormed Config.default = true ∧
    (Instr.w26 .ch1 1 0xFFFFFF 1).wellFormed Config.default = true ∧
    (Instr.wkey .ch1 (2 ^ 32 - 1)).wellFormed Config.default = true ∧
    (Instr.rptf (2 ^ 26 - 1) .ch1).wellFormed Config.default = true :=
  ⟨default_wf, by decide, by decide, by decide, by decide, by decide⟩

theorem witness_EncodeRestoresDecodedBytes : Config.default.Wf ∧
    decode Config.default .button [9, 1] = .ok (.kdigit .ch2 9) :=
  ⟨default_wf, by decide⟩

/-- No record, a record that names an operation of the environment, one of the reporter's, an internal
one, and none. -/
theorem witness_StepAppliesDecodedOperation : State.reset.input = [] ∧
    (State.reset.load [traceRecord 0x30 1 2]).input = traceRecord 0x30 1 2 :: [] ∧
    decode Config.default .opbyte [0x30] = .ok .pollall ∧ Instr.pollall.format = .opbyte ∧
    decode Config.default .line [0x50, 0] = .ok (.rptp [] .ch1) ∧
    (Instr.rptp [] .ch1).format = .line ∧
    decode Config.default .button [10, 1] = .ok (.kesc .ch2) ∧
    (Instr.kesc .ch2).format ≠ .opbyte ∧ (Instr.kesc .ch2).format ≠ .line ∧
    decode Config.default .opbyte [0x31] = .error (.reservedOpByte 0x31) := by decide

theorem witness_EdgeWritesFourRegistersOnly :
    (∃ t, exec (.edge0 .ch1) State.reset = .next t) ∧ ∃ t, exec (.edge1 .ch2) cardAt = .next t :=
  ⟨⟨_, rfl⟩, ⟨_, rfl⟩⟩

theorem witness_EdgesShiftInMostSignificantFirst :
    let edges : List (Bit × Nat × Nat) := [(1, 5, 0), (0, 6, 0)]
    0 < edges.length ∧ (State.reset.chan .ch2).frameOpen = false ∧
    (State.reset.load (edges.map fun e => traceRecord (opByte 0b0001 .ch2 e.1) e.2.1 e.2.2)).input
      = edges.map (fun e => traceRecord (opByte 0b0001 .ch2 e.1) e.2.1 e.2.2) ++ [] ∧
    edges.length ≤ State.reset.cfg.bufw := by decide

theorem witness_PollBeforeDeadlineDoesNothing :
    (State.reset.chan .ch1).frameOpen = false ∧
    elapsed cardAt.cfg cardAt.nowUs (cardAt.chan .ch1).ts ≤ cardAt.cfg.quietPeriodUs ∧
    let samples : List (Nat × Nat) := [(1000, 0), (76000, 76)]
    (cardAt.load (samples.map fun p => traceRecord (opByte 0b0010 .ch1 0) p.1 p.2)).input =
      samples.map (fun p => traceRecord (opByte 0b0010 .ch1 0) p.1 p.2) ++ [] ∧
    ∀ p ∈ samples, elapsed cardAt.cfg (p.1 % 2 ^ cardAt.cfg.tsw) (cardAt.chan .ch1).ts ≤ cardAt.cfg.quietPeriodUs := by
  refine ⟨by decide, by decide, by decide, ?_⟩
  intro p hp
  simp only [List.mem_cons, List.not_mem_nil, or_false] at hp
  rcases hp with rfl | rfl <;> decide

theorem witness_PollClosesAndClassifies : Config.default.Wf ∧
    (∃ t, exec (.poll .ch1) cardOver = .next t) ∧ (∃ t, exec (.poll .ch1) cardAt = .next t) ∧
    ∃ t, exec (.poll .ch1) (buttonOver 7) = .next t :=
  ⟨default_wf, exists_next (by decide +kernel), exists_next (by decide +kernel),
    exists_next (by decide +kernel)⟩

/-- At the deadline and one microsecond after it. -/
theorem witness_QuietPeriodInTrueTime : cardAt.Inv ∧ cardOver.Inv ∧
    (cardAt.chan .ch1).frameOpen = true ∧ (cardOver.chan .ch1).frameOpen = true ∧
    (cardAt.chan .ch1).ts = 1000 % 2 ^ 32 ∧ cardAt.nowUs = 76000 % 2 ^ 32 ∧
    (cardOver.chan .ch1).ts = 1000 % 2 ^ 32 ∧ cardOver.nowUs = 76001 % 2 ^ 32 ∧
    1000 ≤ 76000 ∧ 76000 - 1000 ≤ cardAt.cfg.quietPeriodUs ∧
    cardOver.cfg.quietPeriodUs < 76001 - 1000 ∧ 76001 - 1000 < 2 ^ 32 :=
  ⟨cardAt_inv, cardOver_inv, by decide, by decide, by decide, by decide, by decide, by decide,
    by decide, by decide, by decide, by decide⟩

/-- Counts 25, 26 and 27 all complete; only 26 is a credential. -/
theorem witness_OneCredentialPerClosedCredentialFrame :
    (∃ t, exec (.poll .ch1) cardOver = .next t ∧ decide (.cred 5 .ch1 ∈ t.out.drop 0) = true) ∧
    (∃ t, exec (.poll .ch1) (unitWith (capturing 11 25 1000) Channel.reset 76001 76) = .next t) ∧
    ∃ t, exec (.poll .ch1) (unitWith (capturing 11 27 1000) Channel.reset 76001 76) = .next t :=
  ⟨exists_next_of_holds (by decide +kernel), exists_next (by decide +kernel),
    exists_next (by decide +kernel)⟩

theorem witness_PollallIsPollOneThenPollTwo : cardOver.Inv := cardOver_inv

/-- A poll too early, a credential, a control button, and a digit. -/
theorem witness_PollFrame :
    (∃ t, exec (.poll .ch1) cardAt = .next t) ∧
    ((∃ t, exec (.poll .ch1) cardOver = .next t) ∧ (cardOver.chan .ch1).frameOpen = true ∧
      cardOver.cfg.quietPeriodUs < elapsed cardOver.cfg cardOver.nowUs (cardOver.chan .ch1).ts ∧
      (cardOver.chan .ch1).cnt = 26) ∧
    (∀ code ∈ [(10 : Nat), 11, 12],
      (∃ t, exec (.poll .ch1) (buttonOver code) = .next t) ∧
      (buttonOver code).cfg.quietPeriodUs <
        elapsed (buttonOver code).cfg (buttonOver code).nowUs ((buttonOver code).chan .ch1).ts ∧
      ((buttonOver code).chan .ch1).cnt ≠ 26 ∧
      Memory.wf ((buttonOver code).chan .ch1).dig = true) := by
  refine ⟨exists_next (by decide +kernel), ⟨exists_next (by decide +kernel), by decide,
    by decide, by decide⟩, ?_⟩
  intro code hc
  simp only [List.mem_cons, List.not_mem_nil, or_false] at hc
  rcases hc with rfl | rfl | rfl <;>
    exact ⟨exists_next (by decide +kernel), by decide, by decide, by decide⟩

/-- Channel 1 with a final card, channel 2 with a frame that is not final; then channel 1 with a final
button, for ESCAPE, ENTER and 12, channel 2 idle. -/
theorem witness_PollallFrame :
    let s := unitWith (capturing 11 26 1000) (busy [0x31] 70 3 4 2000) 76500 76
    ((∃ t, exec .pollall s = .next t) ∧
      s.cfg.quietPeriodUs < elapsed s.cfg s.nowUs (s.chan .ch1).ts ∧ (s.chan .ch1).cnt = 26 ∧
      ¬ s.cfg.quietPeriodUs < elapsed s.cfg s.nowUs (s.chan .ch2).ts ∧
      Memory.wf (s.chan .ch2).dig = true) ∧
    ∀ code ∈ [10, 11, 12], (∃ t, exec .pollall (buttonOver code) = .next t) ∧
      ((buttonOver code).chan .ch1).frameOpen = true ∧
      (buttonOver code).cfg.quietPeriodUs <
        elapsed (buttonOver code).cfg (buttonOver code).nowUs ((buttonOver code).chan .ch1).ts ∧
      ((buttonOver code).chan .ch1).cnt ≠ 26 ∧
      ((buttonOver code).chan .ch1).buf % 2 ^ (buttonOver code).cfg.keyw = code := by
  refine ⟨⟨exists_next (by decide +kernel), by decide, by decide, by decide, by decide⟩, ?_⟩
  intro code hc
  simp only [List.mem_cons, List.not_mem_nil, or_false] at hc
  rcases hc with rfl | rfl | rfl <;>
    exact ⟨exists_next (by decide +kernel), by decide, by decide, by decide, by decide⟩

/-- V-ORD's frame of 25 bits, and one of 26. -/
theorem witness_EdgeAndPollAtOnceLoseNoBit :
    (unitWith (capturing 5 25 0) Channel.reset 75001 75).Inv ∧ cardOver.Inv ∧
    cardOver.cfg.quietPeriodUs < elapsed cardOver.cfg cardOver.nowUs (cardOver.chan .ch1).ts ∧
    ((unitWith (capturing 5 25 0) Channel.reset 75001 75).chan .ch1).cnt = 25 ∧
    (unitWith (capturing 5 25 0) Channel.reset 75001 75).cfg.quietPeriodUs <
      elapsed Config.default 75001 0 ∧ (cardOver.chan .ch1).cnt ≠ 25 :=
  ⟨unit_inv (by decide +kernel) (by decide +kernel), cardOver_inv, by decide, by decide,
    by decide, by decide⟩

theorem witness_DecZeroPassesThrough : State.reset.cfg.Wf := default_wf
theorem witness_DecOneStripsParity : State.reset.cfg.Wf := default_wf
theorem witness_CredentialFrameIsReported : State.reset.cfg.Wf := default_wf

theorem witness_CredentialRoundTrip :
    State.reset.cfg.Wf ∧ 1 ≤ 1 ∧ 0 ≤ 1 ∧ 2 ^ 24 - 1 < 2 ^ 24 :=
  ⟨default_wf, by decide, by decide, by decide⟩

/-- Two frames that differ in both parity bits, under each format. -/
theorem witness_ParityBitsInfluenceNothing : cardOver.cfg.Wf ∧
    (cardOver.chan .ch1).frameOpen = true ∧ (cardOver.chan .ch1).cnt = 26 ∧
    cardOver.cfg.quietPeriodUs < elapsed cardOver.cfg cardOver.nowUs (cardOver.chan .ch1).ts ∧
    cardOver.cfg.fmt = 1 ∧ (withFmt 0 cardOver).cfg.fmt = 0 ∧
    0x200000A / 2 % 2 ^ 24 = (cardOver.chan .ch1).buf / 2 % 2 ^ 24 :=
  ⟨default_wf, by decide, by decide, by decide, by decide, by decide, by decide⟩

/-- ENTER's action completes from a state that meets the invariant. -/
theorem witness_KeyTestsActsStamps :
    (∃ t, exec (.kent .ch1) cardOver = .next t) ∧ cardOver.Inv :=
  ⟨exists_next (by decide +kernel), cardOver_inv⟩

/-- An ENTER whose session lies outside the store. -/
theorem witness_KeyFaultsAsItsActionFaults :
    let s := unitWith { Channel.reset with len := 20 } Channel.reset 0 0
    (∃ f, exec (.kent .ch1) s = .fault f) ∧ ∃ f, exec (.key .ch1 11) s = .fault f :=
  ⟨⟨_, rfl⟩, ⟨_, rfl⟩⟩

theorem witness_EnterSubmitsPasscode :
    ((unitWith (session text19 0 false) Channel.reset 0 0).chan .ch1).len ≤
      Config.default.pcap := by decide

/-- One below the capacity and at it. -/
theorem witness_DigitAppendsOrWraps : Config.default.Wf ∧
    Memory.wf (session text18 0 false).dig = true ∧ Memory.wf (session text19 0 false).dig = true ∧
    (session text18 0 false).len + 1 = Config.default.pcap ∧
    (session text19 0 false).len = Config.default.pcap :=
  ⟨default_wf, by decide, by decide, by decide, by decide⟩

theorem witness_KeypadFrameIsItsLowBits : cardOver.Inv := cardOver_inv

/-- A stale and a fresh session. -/
theorem witness_EveryButtonStampsLast :
    (unitWith (session [0x31, 0x32] 500 false) Channel.reset 0 2501).Inv ∧
    (unitWith (session [0x31, 0x32] 500 false) Channel.reset 0 2500).Inv :=
  ⟨unit_inv (by decide +kernel) (by decide +kernel),
    unit_inv (by decide +kernel) (by decide +kernel)⟩

/-- ESCAPE, ENTER and a digit, and a 5-bit value whose low bits are a digit. -/
theorem witness_ButtonFrame :
    (∀ code ∈ [10, 11, 3], ∃ t, exec (.key .ch1 code) (buttonOver 0) = .next t) ∧
    (∃ t, exec (.wkey .ch1 0x17) (buttonOver 0) = .next t) ∧
    0x17 % 2 ^ (buttonOver 0).cfg.keyw = 7 ∧ Memory.wf ((buttonOver 0).chan .ch1).dig = true := by
  refine ⟨fun code hc => ?_, exists_next (by decide +kernel), by decide, by decide⟩
  simp only [List.mem_cons, List.not_mem_nil, or_false] at hc
  rcases hc with rfl | rfl | rfl <;> exact exists_next (by decide +kernel)

/-- Gaps of 2001 and of 2000, and a session one below the capacity. -/
theorem witness_LateDigitDiscardsPasscode :
    let late := unitWith (session [0x31, 0x32] 500 false) Channel.reset 0 2501
    let fresh := unitWith (session text18 500 false) Channel.reset 0 2500
    late.Inv ∧ fresh.Inv ∧ (3 : Nat) ≠ Config.default.keyEsc ∧
    (3 : Nat) ≠ Config.default.keyEnt ∧ (late.chan .ch1).len ≠ 0 ∧
    late.cfg.buttonTimeoutMs < elapsed late.cfg late.nowMs (late.chan .ch1).last ∧
    elapsed fresh.cfg fresh.nowMs (fresh.chan .ch1).last ≤ fresh.cfg.buttonTimeoutMs ∧
    (fresh.chan .ch1).len < fresh.cfg.pcap :=
  ⟨unit_inv (by decide +kernel) (by decide +kernel),
    unit_inv (by decide +kernel) (by decide +kernel), by decide, by decide, by decide, by decide,
    by decide, by decide⟩

/-- Lengths 0, 1, 18 and 19 under a fresh session; the codes of the four kinds of row. -/
theorem witness_SessionTransitionTable :
    (∀ text ∈ [[], [(0x38 : Byte)], text18, text19],
      (unitWith (session text 500 false) Channel.reset 0 2500).Inv ∧
      ¬ ((session text 500 false).len ≠ 0 ∧
        Config.default.buttonTimeoutMs < elapsed Config.default 2500 500)) ∧
    (session [] 500 false).len = 0 ∧ (session [0x38] 500 false).len ≠ 0 ∧
    (session text18 500 false).len < Config.default.pcap ∧
    (session text19 500 false).len = Config.default.pcap ∧
    (10 : Nat) = Config.default.keyEsc ∧ (11 : Nat) = Config.default.keyEnt ∧
    (12 : Nat) ≠ Config.default.keyEsc ∧ (12 : Nat) ≠ Config.default.keyEnt := by
  refine ⟨?_, by decide, by decide, by decide, by decide, by decide, by decide, by decide,
    by decide⟩
  intro text ht
  simp only [List.mem_cons, List.not_mem_nil, or_false] at ht
  rcases ht with rfl | rfl | rfl | rfl <;>
    exact ⟨unit_inv (by decide +kernel) (by decide +kernel), by decide⟩

/-- As many digits as the store holds, and one more. -/
theorem witness_OverflowKeepsFirstCharacter : Config.default.Wf ∧
    0 < (List.replicate 19 (7 : Nat)).length ∧ 19 ≤ Config.default.pcap ∧
    Config.default.pcap < (List.replicate 20 (7 : Nat)).length ∧
    (State.reset.chan .ch1).len = 0 ∧ Memory.wf (State.reset.chan .ch1).dig = true ∧
    Memory.below State.reset.cfg.pcap (State.reset.chan .ch1).dig = true :=
  ⟨default_wf, by decide, by decide, by decide, by decide, by decide, by decide⟩

/-- A text with a leading zero for 5. -/
theorem witness_DecimalTextIsShortest : (5 : Nat) ≠ 0 ∧ [(0x30 : Byte), 0x35] ≠ [] ∧
    (∀ b ∈ [(0x30 : Byte), 0x35], 0x30 ≤ b.toNat ∧ b.toNat ≤ 0x39) ∧
    decNumber [0x30, 0x35] = 5 := by decide

theorem witness_LinesReadBack : (Event.cred 0xFFFFFF .ch2).Wf Config.default ∧
    (Event.pass text19 .ch1).Wf Config.default :=
  ⟨⟨by decide, fun _ => by decide⟩, by show isDigitString _ _ = true; decide⟩

theorem witness_OneLinePerEvent :
    [0x46, 0x35, 0x2C, 0x31, 0x0A] ∈ State.lines { State.reset with out := [.cred 5 .ch1] } := by
  decide +kernel

/-- A step by a record. -/
theorem witness_EveryStepKeepsTheInvariant : (cardOver.load [traceRecord 0x30 76001 76]).Inv ∧
    ∃ t, step (cardOver.load [traceRecord 0x30 76001 76]) = .next t :=
  ⟨⟨default_wf, cardOver_inv.ch1, cardOver_inv.ch2, cardOver_inv.nowUs_lt, cardOver_inv.nowMs_lt,
    cardOver_inv.out⟩,
    exists_next (by decide +kernel)⟩

theorem witness_ResetKeepsParametersAndInputs : ∃ t, exec .reset cardOver = .next t := ⟨_, rfl⟩

theorem witness_EveryOperationIsTotal : cardOver.Inv := cardOver_inv

theorem witness_NoStepChangesParameters :
    ∃ t, step (cardOver.load [traceRecord 0xF0 76001 76]) = .next t :=
  exists_next (by decide +kernel)

theorem witness_LogIsOnlyAppendedTo : (∃ t, exec .pollall cardOver = .next t) ∧
    Instr.pollall ≠ .reset ∧ (∃ t, exec (.edge0 .ch1) cardOver = .next t) ∧
    (Instr.edge0 .ch1).context = some .interrupt :=
  ⟨exists_next (by decide +kernel), by decide, ⟨_, rfl⟩, rfl⟩

theorem witness_EachContextWritesItsOwn :
    (∃ t, exec (.edge1 .ch2) cardOver = .next t) ∧ (Instr.edge1 .ch2).context = some .interrupt ∧
    (∃ t, exec (.poll .ch1) cardOver = .next t) ∧ (Instr.poll .ch1).context = some .main :=
  ⟨⟨_, rfl⟩, rfl, exists_next (by decide +kernel), rfl⟩

/-- An open frame closed by its poll, and by RESET. -/
theorem witness_OnlyClosingPollOrResetClosesFrame : (cardOver.chan .ch1).frameOpen = true ∧
    (∃ t, exec (.poll .ch1) cardOver = .next t ∧ (!(t.chan .ch1).frameOpen) = true) ∧
    (∃ t, exec .reset cardOver = .next t ∧ (!(t.chan .ch1).frameOpen) = true) ∧
    Instr.poll .ch1 ≠ .reset :=
  ⟨by decide, exists_next_of_holds (by decide +kernel), exists_next_of_holds (by decide +kernel),
    by decide⟩

/-- `aux[1]` asserted by an ENTER, and deasserted by RESET. -/
theorem witness_AuxIsWrittenByEnterOrReset :
    (∃ t, exec (.poll .ch1) (buttonOver 11) = .next t ∧
      decide ((t.chan .ch1).aux ≠ ((buttonOver 11).chan .ch1).aux) = true) ∧
    ∃ t, exec .reset (unitWith (session [] 0 true) Channel.reset 0 0) = .next t ∧
      decide ((t.chan .ch1).aux ≠ true) = true :=
  ⟨exists_next_of_holds (by decide +kernel), exists_next_of_holds (by decide +kernel)⟩

theorem witness_ChannelsAreIndependent : cardOver.Inv ∧
    ∀ a ∈ [(⟨.edge1 .ch2, 5, 5⟩ : Applied), ⟨.pollall, 76001, 76⟩, ⟨.reset, 0, 0⟩],
      a.op.isEnvironment = true :=
  ⟨cardOver_inv, by decide⟩

/-- An empty session over different old cells, and a cell right behind a session of one character. -/
theorem witness_CellsBeyondLengthAreUnobservable :
    let k : Channel := session [0x31] 7 false
    let j : Channel := { k with dig := [(0, 0x31), (1, 0x38)] }
    let e : Channel := { Channel.reset with dig := [(0, 0x38)] }
    (unitWith k Channel.reset 0 0).Inv ∧ (unitWith j e 0 0).Inv ∧
    ({ k with dig := [] } : Channel) = { j with dig := [] } ∧
    ({ Channel.reset with dig := [] } : Channel) = { e with dig := [] } ∧
    (∀ i, i < k.len → Memory.read k.dig i = Memory.read j.dig i) ∧
    (∀ i, i < Channel.reset.len →
      Memory.read Channel.reset.dig i = Memory.read e.dig i) ∧
    Memory.read k.dig 1 ≠ Memory.read j.dig 1 ∧ (Instr.poll .ch2).isEnvironment = true :=
  ⟨unit_inv (by decide +kernel) (by decide +kernel),
    unit_inv (by decide +kernel) (by decide +kernel), by decide, by decide, by decide, by decide,
    by decide, rfl⟩

theorem witness_OperationsOnTwoChannelsCommute : cardOver.Inv ∧
    Instr.poll .ch1 ∈ [.edge0 .ch1, .edge1 .ch1, .poll .ch1] ∧
    Instr.edge0 .ch2 ∈ [.edge0 .ch2, .edge1 .ch2, .poll .ch2] :=
  ⟨cardOver_inv, by decide, by decide⟩

/-- Program P1's card and its closing poll. -/
theorem witness_PresentedCardIsReported : State.reset.cfg.Wf ∧ State.reset.cfg.fmt = 1 ∧
    (State.reset.chan .ch1).frameOpen = false ∧ 1000 + 25 * 2000 ≤ 76001 ∧
    State.reset.cfg.quietPeriodUs < 76001 - 1000 ∧ 76001 - 1000 < 2 ^ State.reset.cfg.tsw :=
  ⟨default_wf, by decide, by decide, by decide, by decide, by decide⟩

/-- A step that writes a register, and one that writes the log. -/
theorem witness_OnlyEnvironmentOperationsChangeTheUnit :
    (∃ t, step (State.reset.load [traceRecord 0x11 5 0]) = .next t ∧
      decide (t.ch1 ≠ State.reset.ch1) = true) ∧
    ∃ t, step (cardOver.load [traceRecord 0x20 76001 76]) = .next t ∧
      decide (t.out ≠ cardOver.out) = true :=
  ⟨exists_next_of_holds (by decide +kernel), exists_next_of_holds (by decide +kernel)⟩

/-- A card and a button, each over the quiet period. -/
theorem witness_PollRunsTheInternalOperations : cardOver.cfg.Wf ∧
    (cardOver.chan .ch1).frameOpen = true ∧ ((buttonOver 7).chan .ch1).frameOpen = true ∧
    cardOver.cfg.quietPeriodUs < elapsed cardOver.cfg cardOver.nowUs (cardOver.chan .ch1).ts ∧
    (buttonOver 7).cfg.quietPeriodUs <
      elapsed (buttonOver 7).cfg (buttonOver 7).nowUs ((buttonOver 7).chan .ch1).ts ∧
    (cardOver.chan .ch1).cnt = 26 ∧ ((buttonOver 7).chan .ch1).cnt ≠ 26 :=
  ⟨default_wf, by decide, by decide, by decide, by decide, by decide, by decide⟩

/-- Two times on either side of a wrap of the clock. -/
theorem witness_ElapsedIsModularDifference : 4294967290 ≤ 4294967300 ∧
    4294967300 - 4294967290 < 2 ^ Config.default.tsw := by decide

end Sys2Proof.Tests
end

section
/-! SUPPORT. The statements of 00_scope.md: the numbers of R13 and R14, the log of R12, what the
environment alone changes (R9, R80), the defaults of R7. -/

namespace Sys2Proof.Machine

/-! ### Parameters (R7) -/

/-- Settles O59: each parameter is read off the reset state, and the constraint column holds of the
table's numbers. -/
theorem defaultParameters : Obligations.DefaultParameters := by
  have hwf : State.reset.cfg.Wf := by constructor <;> decide
  exact ⟨rfl, rfl, rfl, rfl, rfl, rfl, rfl, rfl, rfl, rfl, rfl, rfl, rfl, rfl, rfl, hwf⟩

/-! ### Time (R13) -/

/-- R13: the elapsed time leads from the older sample to the newer one, modulo `2^TSW`. -/
theorem elapsed_add_mod (cfg : Config) (a b : Nat) :
    (elapsed cfg a b + b) % 2 ^ cfg.tsw = a % 2 ^ cfg.tsw := by
  have hpos : (0 : Int) < 2 ^ cfg.tsw := by positivity
  unfold elapsed
  zify
  rw [Int.toNat_of_nonneg (Int.emod_nonneg _ hpos.ne'), Int.emod_add_emod, Int.sub_add_cancel]

/-- Settles O58, from the range, the congruence and the true-time law of `elapsed`. -/
theorem elapsedIsModularDifference : Obligations.ElapsedIsModularDifference :=
  fun cfg a b => ⟨elapsed_lt cfg a b, elapsed_add_mod cfg a b, elapsed_of_true_time cfg⟩

/-! ### Decimal texts (R14)

`decText` is compared with the library's digit list `Nat.digits 10`, least significant first. -/

/-- Every byte of the text is an ASCII digit. -/
def IsDecimal (text : List Byte) : Prop := ∀ b ∈ text, 0x30 ≤ b.toNat ∧ b.toNat ≤ 0x39

theorem digitChar_toNat_of_lt {d : Nat} (h : d < 10) : (digitChar d).toNat = d + 0x30 := by
  rw [digitChar_toNat]; omega

/-- With a binary digit of fuel for each decimal one, `decFrom` finds all digits of a positive
number. -/
theorem decFrom_eq_digits {fuel n : Nat} (hpos : n ≠ 0) (hfuel : n < 2 ^ fuel) (tail : List Byte) :
    decFrom fuel n tail = ((Nat.digits 10 n).map digitChar).reverse ++ tail := by
  induction fuel generalizing n tail with
  | zero => omega
  | succ fuel ih =>
    rw [Nat.pow_succ] at hfuel
    rw [decFrom]
    by_cases h : n < 10
    · simp [h, Nat.digits_of_lt 10 n hpos h, digitChar, Nat.mod_eq_of_lt h]
    · have hdigits : Nat.digits 10 n = n % 10 :: Nat.digits 10 (n / 10) :=
        Nat.digits_def' (by decide) (by omega)
      rw [if_neg h, ih (by omega) (by omega), hdigits]
      simp [digitChar]

theorem decText_eq_digits {n : Nat} (hpos : n ≠ 0) :
    decText n = ((Nat.digits 10 n).map digitChar).reverse := by
  rw [decText, decFrom_eq_digits hpos Nat.lt_log2_self, List.append_nil]

theorem decNumber_concat (text : List Byte) (b : Byte) :
    decNumber (text ++ [b]) = 10 * decNumber text + (b.toNat - 0x30) := by
  simp [decNumber]

/-- Reading characters back undoes writing digits. -/
theorem decNumber_digitChars {ds : List Nat} (h : ∀ d ∈ ds, d < 10) :
    decNumber (ds.map digitChar).reverse = Nat.ofDigits 10 ds := by
  induction ds with
  | nil => rfl
  | cons d ds ih =>
    obtain ⟨hd, hds⟩ := List.forall_mem_cons.mp h
    rw [List.map_cons, List.reverse_cons, decNumber_concat, ih hds, digitChar_toNat_of_lt hd,
      Nat.ofDigits_cons]
    omega

/-- A text of `k` digits stands for a number below `10^k`. -/
theorem decNumber_lt {text : List Byte} (h : IsDecimal text) :
    decNumber text < 10 ^ text.length := by
  induction text using List.reverseRecOn with
  | nil => decide
  | append_singleton text b ih =>
    have hb := h b (by simp)
    have htext := ih fun x hx => h x (by simp [hx])
    rw [decNumber_concat, List.length_append, List.length_singleton, Nat.pow_succ]
    omega

theorem decText_isDecimal (n : Nat) : IsDecimal (decText n) := by
  obtain rfl | hpos := eq_or_ne n 0
  · unfold IsDecimal; decide
  · intro b hb
    rw [decText_eq_digits hpos, List.mem_reverse, List.mem_map] at hb
    obtain ⟨d, hd, rfl⟩ := hb
    have hlt : d < 10 := Nat.digits_lt_base (by decide) hd
    rw [digitChar_toNat_of_lt hlt]
    omega

/-- R14: `dec(n)` stands for `n`. -/
theorem decNumber_decText (n : Nat) : decNumber (decText n) = n := by
  obtain rfl | hpos := eq_or_ne n 0
  · decide
  · rw [decText_eq_digits hpos, decNumber_digitChars fun d => Nat.digits_lt_base (by decide),
      Nat.ofDigits_digits]

/-- R14: no leading zero, since the most significant digit of a positive number is not 0. -/
theorem decText_head_ne_zero {n : Nat} (hpos : n ≠ 0) : (decText n).head? ≠ some 0x30 := by
  have hne := (Nat.digits_ne_nil_iff_ne_zero (b := 10)).mpr hpos
  have hlead := Nat.getLast_digit_ne_zero 10 hpos
  have hlt : (Nat.digits 10 n).getLast hne < 10 :=
    Nat.digits_lt_base (by decide) (List.getLast_mem hne)
  rw [decText_eq_digits hpos, List.head?_reverse, List.getLast?_map,
    List.getLast?_eq_getLast_of_ne_nil hne]
  intro h
  have hval := congrArg BitVec.toNat (Option.some.inj h)
  rw [digitChar_toNat_of_lt hlt] at hval
  exact hlead (by simpa using hval)

/-- R14: a text of digits that stands for `n` has room for all digits of `n`. -/
theorem decText_length_le {n : Nat} {text : List Byte} (hne : text ≠ []) (hdec : IsDecimal text)
    (hn : decNumber text = n) : (decText n).length ≤ text.length := by
  obtain rfl | hpos := eq_or_ne n 0
  · exact List.length_pos_of_ne_nil hne
  · rw [decText_eq_digits hpos, List.length_reverse, List.length_map,
      Nat.digits_length_le_iff (by decide)]
    exact hn ▸ decNumber_lt hdec

/-- Settles O36, by comparing `decText` with the library's decimal digits. -/
theorem decimalTextIsShortest : Obligations.DecimalTextIsShortest :=
  ⟨rfl, fun n => ⟨decText_isDecimal n, decNumber_decText n, decText_head_ne_zero,
    fun _ => decText_length_le⟩⟩

/-! ### The log (R12, R35) -/

@[simp] theorem stampLast_out (c : Chan) (s : State) : (stampLast c s).out = s.out := by
  simp [stampLast]
@[simp] theorem escape_out (c : Chan) (s : State) : (escape c s).out = s.out := by simp [escape]

/-- The log of `t` is that of `s` followed by at most `n` events. -/
def AppendsAtMost (n : Nat) (s t : State) : Prop :=
  ∃ events, t.out = s.out ++ events ∧ events.length ≤ n

namespace AppendsAtMost

variable {m n : Nat} {s t u : State}

theorem of_out_eq (h : t.out = s.out) : AppendsAtMost n s t := ⟨[], by simp [h], Nat.zero_le _⟩

theorem of_out_eq_concat {e : Event} (h : t.out = s.out ++ [e]) : AppendsAtMost 1 s t :=
  ⟨[e], h, le_rfl⟩

theorem trans (hst : AppendsAtMost m s t) (htu : AppendsAtMost n t u) :
    AppendsAtMost (m + n) s u := by
  obtain ⟨es, ht, hes⟩ := hst
  obtain ⟨fs, hu, hfs⟩ := htu
  exact ⟨es ++ fs, by rw [hu, ht, List.append_assoc], by rw [List.length_append]; omega⟩

end AppendsAtMost

/-- ENTER emits its one PASS. -/
theorem enter_appends {c : Chan} {s t : State} (h : enter c s = .next t) :
    AppendsAtMost 1 s t := by
  obtain h' | ⟨j, h'⟩ := enter_cases c s <;> rw [h'] at h <;> cases h
  exact .of_out_eq_concat (by rw [setChan_out, emit_out])

/-- A digit emits nothing. -/
theorem appendDigit_out {c : Chan} {code : Nat} {s t : State} (h : appendDigit c code s = .next t) :
    t.out = s.out := by
  obtain h' | ⟨j, h'⟩ := appendDigit_cases c code s <;> rw [h'] at h <;> cases h
  simp

/-- A button emits at most one event, ENTER's. -/
theorem keyButton_appends {c : Chan} {code : Nat} {s t : State} (h : keyButton c code s = .next t) :
    AppendsAtMost 1 s t := by
  obtain ⟨-, h'⟩ | ⟨-, -, h'⟩ | ⟨-, -, h'⟩ | ⟨j, h'⟩ := keyButton_cases c code s <;>
    rw [h'] at h <;> cases h
  · exact .of_out_eq (by simp)
  · exact .of_out_eq_concat (by rw [stampLast_out, setChan_out, emit_out, dropStale_out])
  · exact .of_out_eq (by simp)

/-- A poll emits at most one event: the credential's, or the button's. -/
theorem pollChannel_appends {c : Chan} {s t : State} (h : pollChannel c s = .next t) :
    AppendsAtMost 1 s t := by
  obtain ⟨-, h'⟩ | ⟨-, -, -, h'⟩ | ⟨-, -, -, h'⟩ := pollChannel_cases c s <;> rw [h'] at h
  · cases h; exact .of_out_eq rfl
  · cases h; exact .of_out_eq_concat (by rw [emit_out, closeFrame_out])
  · obtain ⟨events, hout, hlen⟩ := keyButton_appends h
    exact ⟨events, by simpa using hout, hlen⟩

/-- How many events an operation can append to the log. -/
def maxEvents : Instr → Nat
  | .edge0 _ | .edge1 _ | .reset => 0
  | .dec0 _ | .dec1 _ => 0
  | .kesc _ | .kdigit _ _ => 0
  | .rptf _ _ | .rptp _ _ => 0
  | .poll _ | .w26 _ _ _ _ | .wkey _ _ | .key _ _ | .kent _ => 1
  | .pollall => 2

/-- R12: every operation but RESET appends to the log, and no more than its bound. -/
theorem exec_appends {i : Instr} {s t : State} (h : exec i s = .next t) (hi : i ≠ .reset) :
    AppendsAtMost (maxEvents i) s t := by
  cases i with
  | reset => exact absurd rfl hi
  | edge0 c => obtain rfl := next_inj h; exact .of_out_eq (capture_out c 0 s)
  | edge1 c => obtain rfl := next_inj h; exact .of_out_eq (capture_out c 1 s)
  | dec0 v => obtain rfl := next_inj h; exact .of_out_eq rfl
  | dec1 v => obtain rfl := next_inj h; exact .of_out_eq rfl
  | w26 c l id tr => obtain rfl := next_inj h; exact .of_out_eq_concat rfl
  | kesc c => obtain rfl := next_inj h; exact .of_out_eq (escape_out c s)
  | rptf id ch => obtain rfl := next_inj h; exact .of_out_eq rfl
  | rptp digits ch => obtain rfl := next_inj h; exact .of_out_eq rfl
  | poll c => exact pollChannel_appends h
  | wkey c v => exact keyButton_appends h
  | key c code => exact keyButton_appends h
  | kent c => exact enter_appends h
  | kdigit c code => exact .of_out_eq (appendDigit_out h)
  | pollall =>
    obtain ⟨u, h1, h2⟩ := andThen_eq_next.mp h
    exact (pollChannel_appends h1).trans (pollChannel_appends h2)

theorem maxEvents_le_two (i : Instr) : maxEvents i ≤ 2 := by cases i <;> simp [maxEvents]

theorem maxEvents_le_one {i : Instr} (h : i ≠ .pollall) : maxEvents i ≤ 1 := by
  cases i <;> simp_all [maxEvents]

theorem maxEvents_of_interrupt {i : Instr} (h : i.context = some .interrupt) : maxEvents i = 0 := by
  cases i <;> simp_all [maxEvents, Instr.context]

/-- Settles O46, from the bound of each operation. -/
theorem logIsOnlyAppendedTo : Obligations.LogIsOnlyAppendedTo := by
  intro i s t h hi
  obtain ⟨events, hout, hlen⟩ := exec_appends h hi
  refine ⟨events, hout, fun hp => hlen.trans (maxEvents_le_one hp),
    hlen.trans (maxEvents_le_two i), fun hint => ?_⟩
  rw [maxEvents_of_interrupt hint] at hlen
  exact List.length_eq_zero_iff.mp (Nat.le_zero.mp hlen)

/-! ### What the environment alone changes (R9, R80, R82) -/

/-- R80: the operation bytes are the environment's five operations. -/
theorem format_eq_opbyte_iff (i : Instr) : i.format = .opbyte ↔
    (∃ c, i = .edge0 c) ∨ (∃ c, i = .edge1 c) ∨ (∃ c, i = .poll c) ∨ i = .pollall ∨ i = .reset := by
  cases i <;> simp [Instr.format]

/-- R82: the reporter's two functions write no unit state, only `ret`. -/
theorem exec_line_eq {i : Instr} (hi : i.format = .line) (s : State) :
    ∃ bytes, exec i s = .next (returnLine bytes s) := by
  cases i with
  | rptf id ch => exact ⟨credLine s.cfg id ch, rfl⟩
  | rptp digits ch => exact ⟨passLine s.cfg digits ch, rfl⟩
  | _ => cases hi

/-- Settles O56: a step is idle, the environment's, or the reporter's, and the first and the last
write neither a channel nor the log. -/
theorem onlyEnvironmentOperationsChangeTheUnit :
    Obligations.OnlyEnvironmentOperationsChangeTheUnit := by
  intro s t h hne
  obtain ⟨-, h'⟩ | ⟨r, rest, hin, ⟨e, -, h'⟩ | ⟨i, hdec, ⟨hi, h'⟩ | ⟨-, h'⟩⟩⟩ := step_cases s <;>
    rw [h'] at h
  · obtain rfl := next_inj h
    simp at hne
  · cases h
  · obtain hop | hline := (schedulable_iff i).mp hi
    · exact ⟨r, rest, i, hin, hdec, (format_eq_opbyte_iff i).mp hop⟩
    · obtain ⟨bytes, hret⟩ := exec_line_eq hline (applyRecord r rest s)
      obtain rfl := next_inj (hret.symm.trans h)
      simp [returnLine] at hne
  · cases h

end Sys2Proof.Machine
end

section
/-! SUPPORT. The statements of 10_state.md: what reset leaves (R41), the invariant of the registers
(R20, R26, R31, R51, R52), what no operation writes (R37), who writes `aux` (R34), and which digit
cells nothing reads (R30). -/

namespace Sys2Proof.Machine

/-! ### The invariant of a channel (R20, R26, R31, R51, R162) -/

theorem Channel.reset_inv (cfg : Config) : Channel.reset.Inv cfg where
  idle_buf _ := rfl
  idle_cnt _ := rfl
  open_cnt h := nomatch h
  buf_lt_count _ _ := Nat.one_pos
  buf_lt := Nat.two_pow_pos _
  cnt_lt := Nat.two_pow_pos _
  ts_lt := Nat.two_pow_pos _
  last_lt := Nat.two_pow_pos _
  dig_wf := rfl
  dig_below := rfl
  len_le := Nat.zero_le _
  digits _ hi := absurd hi (Nat.not_lt_zero _)

/-- One append doubles the range of the shift register. -/
theorem shiftIn_lt_two_pow_succ (cfg : Config) {buf n : Nat} (h : buf < 2 ^ n) (b : Bit) :
    shiftIn cfg buf b < 2 ^ (n + 1) := by
  rw [shiftIn_eq]
  have hb := b.isLt
  exact (Nat.mod_le _ _).trans_lt (by omega)

/-- An idle channel already holds the `buf` and `cnt` that opening it writes (R26 (i)), so under the
invariant an edge does the same to an idle channel as to an open one, `ts` apart. -/
theorem Channel.Inv.captureBit_eq {cfg : Config} {k : Channel} (h : k.Inv cfg) (b : Bit)
    (us : Nat) : captureBit cfg b us k = { k with
      frameOpen := true
      buf := shiftIn cfg k.buf b
      cnt := satInc cfg k.cnt
      ts := if k.frameOpen then k.ts else us } := by
  cases ho : k.frameOpen with
  | true => simp [captureBit_of_open ho, ← ho]
  | false => simp [captureBit_of_idle ho, h.idle_buf ho, h.idle_cnt ho]

/-- A digit goes to the end of the session or, where it is full, back into it. -/
theorem writeIndex_le {cfg : Config} (h : cfg.Wf) (len : Nat) : writeIndex cfg len ≤ len := by
  have := h.two_le_pcap
  unfold writeIndex
  split_ifs <;> omega

namespace Channel.Inv

variable {cfg : Config} {k : Channel}

theorem edge (hcfg : cfg.Wf) (h : k.Inv cfg) (b : Bit) {us : Nat} (hus : us < 2 ^ cfg.tsw) :
    (captureBit cfg b us k).Inv cfg := by
  rw [h.captureBit_eq]
  exact { h with
    idle_buf := fun ho => nomatch ho
    idle_cnt := fun ho => nomatch ho
    open_cnt := fun _ => satInc_pos hcfg k.cnt
    buf_lt := shiftIn_lt cfg k.buf b
    cnt_lt := satInc_lt cfg h.cnt_lt
    ts_lt := by dsimp only; split_ifs; exacts [h.ts_lt, hus]
    buf_lt_count := by
      intro hsat hle
      have hcnt : k.cnt < 2 ^ cfg.cntw - 1 := by
        by_contra hmax
        simp [satInc, hmax] at hsat
      simp only [satInc, hcnt, if_true] at hle ⊢
      exact shiftIn_lt_two_pow_succ cfg (h.buf_lt_count hcnt (by omega)) b }

theorem close (h : k.Inv cfg) :
    Channel.Inv cfg { k with buf := 0, cnt := 0, frameOpen := false } :=
  { h with
    idle_buf := fun _ => rfl
    idle_cnt := fun _ => rfl
    open_cnt := fun ho => nomatch ho
    buf_lt_count := fun _ _ => Nat.one_pos
    buf_lt := Nat.two_pow_pos _
    cnt_lt := Nat.two_pow_pos _ }

theorem emptySession (h : k.Inv cfg) : Channel.Inv cfg { k with len := 0 } :=
  { h with len_le := Nat.zero_le _, digits := fun _ hi => absurd hi (Nat.not_lt_zero _) }

theorem submit (h : k.Inv cfg) (aux : Bool) : Channel.Inv cfg { k with aux := aux, len := 0 } :=
  { h.emptySession with }

theorem setLast (h : k.Inv cfg) {ms : Nat} (hms : ms < 2 ^ cfg.tsw) :
    Channel.Inv cfg { k with last := ms } := { h with last_lt := hms }

/-- R52: a digit goes to a cell of the store, and the session that ends in it lies in the store. -/
theorem append (hcfg : cfg.Wf) (h : k.Inv cfg) {code : Nat} (hcode : code < 2 ^ cfg.keyw) :
    (appendChannel cfg code k).Inv cfg := by
  have hidx := writeIndex_lt hcfg k.len
  have hlen : (appendChannel cfg code k).len = writeIndex cfg k.len + 1 :=
    writeIndex_add_one hcfg k.len
  exact { h with
    dig_wf := Memory.wf_write h.dig_wf _ _
    dig_below := Memory.below_write h.dig_below hidx _
    len_le := hlen.trans_le hidx
    digits := by
      intro i hi
      rw [hlen] at hi
      rw [appendChannel, Memory.read_write h.dig_wf]
      split_ifs with hiw
      · exact digitChar_isDigitChar hcode
      · exact h.digits i (by have := writeIndex_le hcfg k.len; omega) }

/-- R162: the passcode of a session is a digit string. -/
theorem passcode_isDigitString (h : k.Inv cfg) : isDigitString cfg k.passcode = true := by
  simp only [isDigitString, Channel.passcode, List.length_map, List.length_range', List.all_map,
    Bool.and_eq_true, decide_eq_true_eq, List.all_eq_true, List.mem_range'_1]
  exact ⟨h.len_le, fun i hi => h.digits i (by omega)⟩

end Channel.Inv

/-! ### The invariant of the machine -/

/-- Settles O42: no register holds a value, no event is logged. -/
theorem resetMeetsTheInvariant : Obligations.ResetMeetsTheInvariant := by
  have hcfg : State.reset.cfg.Wf := by constructor <;> decide
  exact ⟨hcfg, Channel.reset_inv _, Channel.reset_inv _, Nat.two_pow_pos _, Nat.two_pow_pos _,
    fun _ he => nomatch he⟩

/-- Settles O41, register by register. -/
theorem resetState : Obligations.ResetState := by
  intro c
  have hc : State.reset.chan c = Channel.reset := by cases c <;> rfl
  rw [hc]
  refine ⟨rfl, rfl, rfl, rfl, rfl, rfl, rfl, fun _ => rfl, rfl, rfl, fun s t h => ?_⟩
  obtain rfl := next_inj h
  rw [resetUnit_cfg]

/-- R126, R128: what a closing poll reports has the width of an id, 24 bits under format 1. -/
theorem decValue_cred_wf (cfg : Config) (v : RawFrame) (c : Chan) :
    (Event.cred (decValue cfg v) c).Wf cfg := by
  refine ⟨decValue_lt cfg v, fun hfmt => ?_⟩
  rw [decValue, if_neg (by rw [hfmt]; decide)]
  exact dec1Value_lt cfg v

namespace State.Inv

variable {s t : State}

theorem chan (h : s.Inv) (c : Chan) : (s.chan c).Inv s.cfg := by
  cases c; exacts [h.ch1, h.ch2]

theorem setChan (h : s.Inv) (c : Chan) {k : Channel} (hk : k.Inv s.cfg) : (s.setChan c k).Inv := by
  cases c; exacts [{ h with ch1 := hk }, { h with ch2 := hk }]

theorem emit (h : s.Inv) {e : Event} (he : e.Wf s.cfg) : (s.emit e).Inv :=
  { h with out := by simpa [or_imp, forall_and] using And.intro h.out he }

theorem applyRecord (h : s.Inv) (r : Record) (rest : List Record) : (applyRecord r rest s).Inv :=
  { h with
    nowUs_lt := Nat.mod_lt _ (Nat.two_pow_pos _)
    nowMs_lt := Nat.mod_lt _ (Nat.two_pow_pos _) }

theorem resetUnit (h : s.Inv) : (resetUnit s).Inv :=
  { h with
    ch1 := Channel.reset_inv _
    ch2 := Channel.reset_inv _
    out := fun _ he => nomatch he }

theorem capture (h : s.Inv) (c : Chan) (b : Bit) : (capture c b s).Inv :=
  h.setChan c ((h.chan c).edge h.cfg b h.nowUs_lt)

theorem closeFrame (h : s.Inv) (c : Chan) : (closeFrame c s).Inv := h.setChan c (h.chan c).close

theorem dropStale (h : s.Inv) (c : Chan) : (dropStale c s).Inv := by
  unfold Machine.dropStale
  split_ifs
  exacts [h.setChan c (h.chan c).emptySession, h]

theorem stampLast (h : s.Inv) (c : Chan) : (stampLast c s).Inv :=
  h.setChan c ((h.chan c).setLast h.nowMs_lt)

/-- R136: a button keeps the invariant, whatever its action. -/
theorem keyButton (h : s.Inv) {c : Chan} {code : Nat} (hcode : code < 2 ^ s.cfg.keyw)
    (ht : keyButton c code s = .next t) : t.Inv := by
  have hd := h.dropStale c
  have hk := hd.chan c
  obtain ⟨-, h'⟩ | ⟨-, -, h'⟩ | ⟨-, -, h'⟩ | ⟨j, h'⟩ := keyButton_cases c code s <;>
    rw [h'] at ht <;> cases ht
  · exact (hd.setChan c hk.emptySession).stampLast c
  · exact ((hd.emit (e := .pass _ c) hk.passcode_isDigitString).setChan c (hk.submit _)).stampLast c
  · rw [dropStale_cfg] at hk
    exact (hd.setChan c (by rw [dropStale_cfg]; exact hk.append h.cfg hcode)).stampLast c

/-- R110: a poll keeps the invariant. -/
theorem pollChannel (h : s.Inv) {c : Chan} (ht : pollChannel c s = .next t) : t.Inv := by
  obtain ⟨-, h'⟩ | ⟨-, -, -, h'⟩ | ⟨-, -, -, h'⟩ := pollChannel_cases c s <;> rw [h'] at ht
  · exact next_inj ht ▸ h
  · obtain rfl := next_inj ht
    exact (h.closeFrame c).emit (by rw [closeFrame_cfg]; exact decValue_cred_wf _ _ _)
  · exact (h.closeFrame c).keyButton (by rw [closeFrame_cfg]; exact buttonCode_lt _ _) ht

/-- Every operation of the environment keeps the invariant. -/
theorem exec_environment (h : s.Inv) {i : Instr} (hi : i.format = .opbyte)
    (ht : exec i s = .next t) : t.Inv := by
  obtain ⟨c, rfl⟩ | ⟨c, rfl⟩ | ⟨c, rfl⟩ | rfl | rfl := (format_eq_opbyte_iff i).mp hi
  · exact next_inj ht ▸ h.capture c 0
  · exact next_inj ht ▸ h.capture c 1
  · exact h.pollChannel ht
  · obtain ⟨u, h1, h2⟩ := andThen_eq_next.mp ht
    exact (h.pollChannel h1).pollChannel h2
  · exact next_inj ht ▸ h.resetUnit

end State.Inv

/-- A step that answers a next state has done nothing, or has run the operation of a record. -/
theorem step_next_cases {s t : State} (h : step s = .next t) : t = s ∨
    ∃ r rest i, i.schedulable = true ∧ exec i (applyRecord r rest s) = .next t := by
  obtain ⟨-, h'⟩ | ⟨r, rest, -, ⟨e, -, h'⟩ | ⟨i, -, ⟨hi, h'⟩ | ⟨-, h'⟩⟩⟩ := step_cases s <;>
    rw [h'] at h
  · exact .inl (next_inj h).symm
  · cases h
  · exact .inr ⟨r, rest, i, hi, h⟩
  · cases h

/-- Settles O43: a step is idle, the environment's, or the reporter's. -/
theorem everyStepKeepsTheInvariant : Obligations.EveryStepKeepsTheInvariant := by
  intro s t h ht
  obtain rfl | ⟨r, rest, i, hi, ht⟩ := step_next_cases ht
  · exact h
  · have hr := h.applyRecord r rest
    obtain hop | hline := (schedulable_iff i).mp hi
    · exact hr.exec_environment hop ht
    · obtain ⟨bytes, hret⟩ := exec_line_eq hline (applyRecord r rest s)
      obtain rfl := next_inj (hret.symm.trans ht)
      exact { hr with }

/-! ### What no operation writes (R37, R196) -/

/-- The parameters, the clock inputs and the operations still to be applied are the same. -/
structure SameInputs (s t : State) : Prop where
  cfg : t.cfg = s.cfg
  nowUs : t.nowUs = s.nowUs
  nowMs : t.nowMs = s.nowMs
  input : t.input = s.input

namespace SameInputs

variable {s t u : State}

theorem refl (s : State) : SameInputs s s := ⟨rfl, rfl, rfl, rfl⟩

theorem trans (hst : SameInputs s t) (htu : SameInputs t u) : SameInputs s u :=
  ⟨htu.cfg.trans hst.cfg, htu.nowUs.trans hst.nowUs, htu.nowMs.trans hst.nowMs,
    htu.input.trans hst.input⟩

theorem setChan (h : SameInputs s t) (c : Chan) (k : Channel) : SameInputs s (t.setChan c k) :=
  h.trans ⟨setChan_cfg t c k, setChan_nowUs t c k, setChan_nowMs t c k, setChan_input t c k⟩

theorem emit (h : SameInputs s t) (e : Event) : SameInputs s (t.emit e) :=
  h.trans ⟨rfl, rfl, rfl, rfl⟩

theorem dropStale (c : Chan) (s : State) : SameInputs s (dropStale c s) :=
  ⟨dropStale_cfg c s, dropStale_nowUs c s, dropStale_nowMs c s, dropStale_input c s⟩

end SameInputs

theorem enter_sameInputs {c : Chan} {s t : State} (h : enter c s = .next t) : SameInputs s t := by
  obtain h' | ⟨j, h'⟩ := enter_cases c s <;> rw [h'] at h <;> cases h
  exact ((SameInputs.refl s).emit _).setChan c _

theorem appendDigit_sameInputs {c : Chan} {code : Nat} {s t : State}
    (h : appendDigit c code s = .next t) : SameInputs s t := by
  obtain h' | ⟨j, h'⟩ := appendDigit_cases c code s <;> rw [h'] at h <;> cases h
  exact (SameInputs.refl s).setChan c _

theorem keyButton_sameInputs {c : Chan} {code : Nat} {s t : State}
    (h : keyButton c code s = .next t) : SameInputs s t := by
  have hd := SameInputs.dropStale c s
  obtain ⟨-, h'⟩ | ⟨-, -, h'⟩ | ⟨-, -, h'⟩ | ⟨j, h'⟩ := keyButton_cases c code s <;>
    rw [h'] at h <;> cases h
  · exact (hd.setChan c _).setChan c _
  · exact ((hd.emit _).setChan c _).setChan c _
  · exact (hd.setChan c _).setChan c _

theorem pollChannel_sameInputs {c : Chan} {s t : State} (h : pollChannel c s = .next t) :
    SameInputs s t := by
  have hclose : SameInputs s (closeFrame c s) := (SameInputs.refl s).setChan c _
  obtain ⟨-, h'⟩ | ⟨-, -, -, h'⟩ | ⟨-, -, -, h'⟩ := pollChannel_cases c s <;> rw [h'] at h
  · exact next_inj h ▸ .refl s
  · exact next_inj h ▸ hclose.emit _
  · exact hclose.trans (keyButton_sameInputs h)

/-- R37, R196: no operation, RESET among them, writes a parameter or an input. -/
theorem exec_sameInputs {i : Instr} {s t : State} (h : exec i s = .next t) : SameInputs s t := by
  cases i with
  | edge0 c => exact next_inj h ▸ (SameInputs.refl s).setChan c _
  | edge1 c => exact next_inj h ▸ (SameInputs.refl s).setChan c _
  | reset => exact next_inj h ▸ ⟨rfl, rfl, rfl, rfl⟩
  | dec0 v => exact next_inj h ▸ ⟨rfl, rfl, rfl, rfl⟩
  | dec1 v => exact next_inj h ▸ ⟨rfl, rfl, rfl, rfl⟩
  | w26 c l id tr => exact next_inj h ▸ (SameInputs.refl s).emit _
  | kesc c => exact next_inj h ▸ (SameInputs.refl s).setChan c _
  | rptf id ch => exact next_inj h ▸ ⟨rfl, rfl, rfl, rfl⟩
  | rptp digits ch => exact next_inj h ▸ ⟨rfl, rfl, rfl, rfl⟩
  | poll c => exact pollChannel_sameInputs h
  | wkey c v => exact keyButton_sameInputs h
  | key c code => exact keyButton_sameInputs h
  | kent c => exact enter_sameInputs h
  | kdigit c code => exact appendDigit_sameInputs h
  | pollall =>
    obtain ⟨u, h1, h2⟩ := andThen_eq_next.mp h
    exact (pollChannel_sameInputs h1).trans (pollChannel_sameInputs h2)

/-- Settles O45: the reset values by evaluation, the rest since no operation writes a parameter. -/
theorem noStepChangesParameters : Obligations.NoStepChangesParameters := by
  refine ⟨rfl, rfl, rfl, rfl, fun s t h => ?_⟩
  obtain rfl | ⟨r, rest, i, -, h⟩ := step_next_cases h
  · rfl
  · exact (exec_sameInputs h).cfg

/-! ### Who writes `aux` (R34, R144) -/

/-- A write of channel `c` that leaves its `aux` leaves every `aux`. -/
theorem setChan_aux {s : State} {c : Chan} {k : Channel} (hk : k.aux = (s.chan c).aux) (d : Chan) :
    ((s.setChan c k).chan d).aux = (s.chan d).aux := by
  obtain rfl | hd := eq_or_ne d c
  · rw [chan_setChan_same, hk]
  · rw [chan_setChan_of_ne _ _ _ _ hd]

@[simp] theorem appendChannel_aux (cfg : Config) (code : Nat) (k : Channel) :
    (appendChannel cfg code k).aux = k.aux := rfl
@[simp] theorem capture_aux (c d : Chan) (b : Bit) (s : State) :
    ((capture c b s).chan d).aux = (s.chan d).aux := setChan_aux (captureBit_aux _ _ _ _) d
@[simp] theorem closeFrame_aux (c d : Chan) (s : State) :
    ((closeFrame c s).chan d).aux = (s.chan d).aux := setChan_aux (by rfl) d
@[simp] theorem escape_aux (c d : Chan) (s : State) :
    ((escape c s).chan d).aux = (s.chan d).aux := setChan_aux (by rfl) d
@[simp] theorem stampLast_aux (c d : Chan) (s : State) :
    ((stampLast c s).chan d).aux = (s.chan d).aux := setChan_aux (by rfl) d
@[simp] theorem dropStale_aux (c d : Chan) (s : State) :
    ((dropStale c s).chan d).aux = (s.chan d).aux := by
  unfold dropStale; split_ifs; exacts [setChan_aux (by rfl) d, rfl]

/-- From `s` to `t` the log grows, and `aux` of channel `d` stays, or is what a `PASS` of the
channel among the new events says: whether its first character is '8' (0x38). -/
def AuxFollowsPass (d : Chan) (s t : State) : Prop :=
  ∃ events, t.out = s.out ++ events ∧
    ((t.chan d).aux = (s.chan d).aux ∨
      ∃ digits, .pass digits d ∈ events ∧ (t.chan d).aux = decide (digits.head? = some 0x38))

namespace AuxFollowsPass

variable {d : Chan} {n : Nat} {s t u : State}

theorem of_aux_eq (hout : AppendsAtMost n s t) (haux : (t.chan d).aux = (s.chan d).aux) :
    AuxFollowsPass d s t :=
  let ⟨events, hevents, _⟩ := hout
  ⟨events, hevents, .inl haux⟩

theorem of_eq (hout : t.out = s.out) (haux : (t.chan d).aux = (s.chan d).aux) :
    AuxFollowsPass d s t := .of_aux_eq (.of_out_eq (n := 0) hout) haux

theorem trans (hst : AuxFollowsPass d s t) (htu : AuxFollowsPass d t u) : AuxFollowsPass d s u := by
  obtain ⟨es, ht, hes⟩ := hst
  obtain ⟨fs, hu, hfs⟩ := htu
  refine ⟨es ++ fs, by rw [hu, ht, List.append_assoc], ?_⟩
  obtain hkeep | ⟨digits, hmem, hset⟩ := hfs
  · obtain hkeep' | ⟨digits, hmem, hset⟩ := hes
    · exact .inl (hkeep.trans hkeep')
    · exact .inr ⟨digits, List.mem_append_left fs hmem, hkeep.trans hset⟩
  · exact .inr ⟨digits, List.mem_append_right es hmem, hset⟩

/-- R144: an ENTER submits the passcode whose first character it puts on its own channel's line. -/
theorem enter (c d : Chan) (s : State) :
    AuxFollowsPass d s ((s.emit (.pass (s.chan c).passcode c)).setChan c
      { s.chan c with aux := auxFlag (s.chan c), len := 0 }) := by
  refine ⟨[.pass (s.chan c).passcode c], by rw [setChan_out, emit_out], ?_⟩
  obtain rfl | hd := eq_or_ne d c
  · exact .inr ⟨_, List.mem_singleton_self _, by rw [chan_setChan_same]; exact auxFlag_eq_head _⟩
  · exact .inl (by rw [chan_setChan_of_ne _ _ _ _ hd, emit_chan])

theorem keyButton {c : Chan} {code : Nat} (h : keyButton c code s = .next t) (d : Chan) :
    AuxFollowsPass d s t := by
  have hout := keyButton_appends h
  obtain ⟨-, h'⟩ | ⟨-, -, h'⟩ | ⟨-, -, h'⟩ | ⟨j, h'⟩ := keyButton_cases c code s <;>
    rw [h'] at h <;> cases h
  · exact .of_aux_eq hout (by simp)
  · exact (AuxFollowsPass.of_eq (dropStale_out c s) (dropStale_aux c d s)).trans
      ((enter c d (dropStale c s)).trans (.of_eq (stampLast_out c _) (stampLast_aux c d _)))
  · exact .of_aux_eq hout
      (by rw [stampLast_aux, setChan_aux (appendChannel_aux _ _ _), dropStale_aux])

theorem pollChannel {c : Chan} (h : pollChannel c s = .next t) (d : Chan) :
    AuxFollowsPass d s t := by
  have hout := pollChannel_appends h
  obtain ⟨-, h'⟩ | ⟨-, -, -, h'⟩ | ⟨-, -, -, h'⟩ := pollChannel_cases c s <;> rw [h'] at h
  · exact next_inj h ▸ .of_eq rfl rfl
  · obtain rfl := next_inj h
    exact .of_aux_eq hout (by rw [emit_chan, closeFrame_aux])
  · exact (AuxFollowsPass.of_eq (closeFrame_out s c) (closeFrame_aux c d s)).trans (keyButton h d)

end AuxFollowsPass

/-- R34: `aux` is written by ENTER and by RESET only. -/
theorem exec_auxFollowsPass {i : Instr} {s t : State} (h : exec i s = .next t) (hi : i ≠ .reset)
    (d : Chan) : AuxFollowsPass d s t := by
  have hout := exec_appends h hi
  cases i with
  | reset => exact absurd rfl hi
  | edge0 c => exact .of_aux_eq hout (next_inj h ▸ capture_aux c d 0 s)
  | edge1 c => exact .of_aux_eq hout (next_inj h ▸ capture_aux c d 1 s)
  | dec0 v => exact .of_aux_eq hout (next_inj h ▸ by rw [returnId_chan])
  | dec1 v => exact .of_aux_eq hout (next_inj h ▸ by rw [returnId_chan])
  | w26 c l id tr => exact .of_aux_eq hout (next_inj h ▸ by rw [credentialFrame, emit_chan])
  | kesc c => exact .of_aux_eq hout (next_inj h ▸ escape_aux c d s)
  | rptf id ch => exact .of_aux_eq hout (next_inj h ▸ by rw [returnLine_chan])
  | rptp digits ch => exact .of_aux_eq hout (next_inj h ▸ by rw [returnLine_chan])
  | poll c => exact .pollChannel h d
  | wkey c v => exact .keyButton h d
  | key c code => exact .keyButton h d
  | kent c =>
    obtain h' | ⟨j, h'⟩ := enter_cases c s
    · exact next_inj (h'.symm.trans h) ▸ .enter c d s
    · cases h'.symm.trans h
  | kdigit c code =>
    obtain h' | ⟨j, h'⟩ := appendDigit_cases c code s
    · exact .of_aux_eq hout (next_inj (h'.symm.trans h) ▸ setChan_aux (appendChannel_aux _ _ _) d)
    · cases h'.symm.trans h
  | pollall =>
    obtain ⟨u, h1, h2⟩ := andThen_eq_next.mp h
    exact (AuxFollowsPass.pollChannel h1 d).trans (.pollChannel h2 d)

/-- Settles O49: RESET deasserts the line; any other operation that changes it emits the `PASS`. -/
theorem auxIsWrittenByEnterOrReset : Obligations.AuxIsWrittenByEnterOrReset := by
  intro i s t c h hne
  obtain rfl | hi := eq_or_ne i .reset
  · exact .inl ⟨rfl, by rw [← next_inj h, resetUnit_chan]; rfl⟩
  · obtain ⟨events, hout, hkeep | hset⟩ := exec_auxFollowsPass h hi c
    · exact absurd hkeep hne
    · exact .inr (by rwa [hout, List.drop_left])

/-! ### Which cells nothing reads (R30, R138, R142, R144) -/

/-- The channels differ in nothing but digit cells at or beyond `len`. -/
def Channel.Alike (k k' : Channel) : Prop :=
  ∃ m, k' = { k with dig := m } ∧ ∀ i, i < k.len → Memory.read k.dig i = Memory.read m i

namespace Channel.Alike

variable {cfg : Config} {k k' : Channel}

theorem of_eq_of_read (heq : ({ k with dig := [] } : Channel) = { k' with dig := [] })
    (hread : ∀ i, i < k.len → Memory.read k.dig i = Memory.read k'.dig i) : k.Alike k' := by
  refine ⟨k'.dig, ?_, hread⟩
  calc k' = { ({ k' with dig := [] } : Channel) with dig := k'.dig } := rfl
    _ = { k with dig := k'.dig } := by rw [← heq]

theorem refl (k : Channel) : k.Alike k := ⟨k.dig, rfl, fun _ _ => rfl⟩

theorem len_eq (h : k.Alike k') : k'.len = k.len := by obtain ⟨m, rfl, -⟩ := h; rfl
theorem buf_eq (h : k.Alike k') : k'.buf = k.buf := by obtain ⟨m, rfl, -⟩ := h; rfl
theorem cnt_eq (h : k.Alike k') : k'.cnt = k.cnt := by obtain ⟨m, rfl, -⟩ := h; rfl
theorem aux_eq (h : k.Alike k') : k'.aux = k.aux := by obtain ⟨m, rfl, -⟩ := h; rfl
theorem frameOpen_eq (h : k.Alike k') : k'.frameOpen = k.frameOpen := by
  obtain ⟨m, rfl, -⟩ := h; rfl
theorem quietOver_eq (h : k.Alike k') (us : Nat) : quietOver cfg us k' = quietOver cfg us k := by
  obtain ⟨m, rfl, -⟩ := h; rfl
theorem stale_eq (h : k.Alike k') (ms : Nat) : stale cfg ms k' = stale cfg ms k := by
  obtain ⟨m, rfl, -⟩ := h; rfl

/-- R31: the passcode ends below `len`. -/
theorem passcode_eq (h : k.Alike k') : k'.passcode = k.passcode := by
  obtain ⟨m, rfl, hm⟩ := h
  exact List.map_congr_left fun i hi => (hm i (by simpa using List.mem_range'_1.mp hi)).symm

theorem edge (h : k.Alike k') (b : Bit) (us : Nat) :
    (captureBit cfg b us k).Alike (captureBit cfg b us k') := by
  obtain ⟨m, rfl, hm⟩ := h
  refine ⟨m, ?_, by simpa using hm⟩
  cases ho : k.frameOpen <;> simp [captureBit, ho]

theorem close (h : k.Alike k') :
    Channel.Alike { k with buf := 0, cnt := 0, frameOpen := false }
      { k' with buf := 0, cnt := 0, frameOpen := false } := by
  obtain ⟨m, rfl, hm⟩ := h
  exact ⟨m, rfl, hm⟩

/-- R138, R142: an emptied session hides every cell. -/
theorem emptySession (h : k.Alike k') : Channel.Alike { k with len := 0 } { k' with len := 0 } := by
  obtain ⟨m, rfl, -⟩ := h
  exact ⟨m, rfl, fun _ hi => absurd hi (Nat.not_lt_zero _)⟩

theorem setLast (h : k.Alike k') (ms : Nat) :
    Channel.Alike { k with last := ms } { k' with last := ms } := by
  obtain ⟨m, rfl, hm⟩ := h
  exact ⟨m, rfl, hm⟩

/-- R144: what ENTER puts on the line is about the passcode. -/
theorem submit (h : k.Alike k') :
    Channel.Alike { k with aux := auxFlag k, len := 0 }
      { k' with aux := auxFlag k', len := 0 } := by
  rw [auxFlag_eq_head, auxFlag_eq_head, h.passcode_eq]
  obtain ⟨m, rfl, -⟩ := h
  exact ⟨m, rfl, fun _ hi => absurd hi (Nat.not_lt_zero _)⟩

/-- R146: a digit makes its own cell part of the session and no other. -/
theorem append (hcfg : cfg.Wf) (hk : Memory.wf k.dig = true) (hk' : Memory.wf k'.dig = true)
    (h : k.Alike k') (code : Nat) :
    (appendChannel cfg code k).Alike (appendChannel cfg code k') := by
  obtain ⟨m, rfl, hm⟩ := h
  refine ⟨_, rfl, fun i hi => ?_⟩
  have hlen : (appendChannel cfg code k).len = writeIndex cfg k.len + 1 :=
    writeIndex_add_one hcfg k.len
  have hidx := writeIndex_le hcfg k.len
  simp only [appendChannel, Memory.read_write hk, Memory.read_write hk']
  split_ifs
  · rfl
  · exact hm i (by omega)

end Channel.Alike

/-- The states show the same: the same parameters and log, and channels alike. -/
structure State.Alike (s u : State) : Prop where
  cfg : u.cfg = s.cfg
  out : u.out = s.out
  chan : ∀ c, (s.chan c).Alike (u.chan c)

theorem State.Alike.observed_eq {s u : State} (h : s.Alike u) : s.observed = u.observed :=
  Prod.ext h.out.symm (Prod.ext (h.chan .ch1).aux_eq.symm (h.chan .ch2).aux_eq.symm)

/-- The states show the same and stand at the same clock samples. -/
structure State.AlikeNow (s u : State) : Prop extends s.Alike u where
  nowUs : u.nowUs = s.nowUs
  nowMs : u.nowMs = s.nowMs

/-- Both answers are a next state, and the two show the same. -/
def AlikeNext (a b : Answer) : Prop := ∃ t v, a = .next t ∧ b = .next v ∧ t.AlikeNow v

theorem State.AlikeNow.next {s u : State} (h : s.AlikeNow u) : AlikeNext (.next s) (.next u) :=
  ⟨s, u, rfl, rfl, h⟩

namespace State.AlikeNow

variable {s u : State}

theorem setChan (h : s.AlikeNow u) (c : Chan) {k k' : Channel} (hk : k.Alike k') :
    (s.setChan c k).AlikeNow (u.setChan c k') where
  cfg := by simpa using h.cfg
  out := by simpa using h.out
  nowUs := by simpa using h.nowUs
  nowMs := by simpa using h.nowMs
  chan d := by
    obtain rfl | hd := eq_or_ne d c
    · simpa using hk
    · simpa [hd] using h.chan d

theorem emit (h : s.AlikeNow u) (e : Event) : (s.emit e).AlikeNow (u.emit e) where
  cfg := h.cfg
  out := by rw [emit_out, emit_out, h.out]
  nowUs := h.nowUs
  nowMs := h.nowMs
  chan d := by simpa using h.chan d

theorem capture (h : s.AlikeNow u) (c : Chan) (b : Bit) :
    (capture c b s).AlikeNow (capture c b u) := by
  unfold Machine.capture
  rw [h.cfg, h.nowUs]
  exact h.setChan c ((h.chan c).edge b s.nowUs)

theorem closeFrame (h : s.AlikeNow u) (c : Chan) : (closeFrame c s).AlikeNow (closeFrame c u) :=
  h.setChan c (h.chan c).close

theorem resetUnit (h : s.AlikeNow u) : (resetUnit s).AlikeNow (resetUnit u) :=
  { h with out := rfl, chan := fun c => by simpa using Channel.Alike.refl Channel.reset }

theorem dropStale (h : s.AlikeNow u) (c : Chan) : (dropStale c s).AlikeNow (dropStale c u) := by
  unfold Machine.dropStale
  rw [h.cfg, h.nowMs, (h.chan c).stale_eq]
  split_ifs
  exacts [h.setChan c (h.chan c).emptySession, h]

theorem stampLast (h : s.AlikeNow u) (c : Chan) : (stampLast c s).AlikeNow (stampLast c u) := by
  unfold Machine.stampLast
  rw [h.nowMs]
  exact h.setChan c ((h.chan c).setLast s.nowMs)

/-- R136: the three actions read the session below `len` only. -/
theorem buttonAction (h : s.AlikeNow u) (hs : s.Inv) (hu : u.Inv) (c : Chan) (code : Nat) :
    AlikeNext (buttonAction c code s) (buttonAction c code u) := by
  have hk := h.chan c
  unfold Machine.buttonAction
  rw [h.cfg]
  split_ifs
  · exact (h.setChan c hk.emptySession).next
  · rw [enter_next (hs.chan c).len_le, enter_next (hu.chan c).len_le, hk.passcode_eq]
    exact ((h.emit _).setChan c hk.submit).next
  · rw [appendDigit_next hs.cfg, appendDigit_next hu.cfg, h.cfg]
    exact (h.setChan c (hk.append hs.cfg (hs.chan c).dig_wf (hu.chan c).dig_wf code)).next

theorem keyButton (h : s.AlikeNow u) (hs : s.Inv) (hu : u.Inv) (c : Chan) (code : Nat) :
    AlikeNext (keyButton c code s) (keyButton c code u) := by
  obtain ⟨t, v, ht, hv, htv⟩ :=
    (h.dropStale c).buttonAction (hs.dropStale c) (hu.dropStale c) c code
  unfold Machine.keyButton
  rw [ht, hv]
  exact (htv.stampLast c).next

/-- R110: a poll reads the frame and its time, and runs a button on the session. -/
theorem pollChannel (h : s.AlikeNow u) (hs : s.Inv) (hu : u.Inv) (c : Chan) :
    AlikeNext (pollChannel c s) (pollChannel c u) := by
  have hk := h.chan c
  unfold Machine.pollChannel closeAndClassify isCredential
  simp only [h.cfg, h.nowUs, hk.frameOpen_eq, hk.quietOver_eq, hk.cnt_eq, hk.buf_eq]
  split_ifs
  · unfold credentialFrame
    rw [closeFrame_cfg, closeFrame_cfg, h.cfg]
    exact ((h.closeFrame c).emit _).next
  · unfold keypadFrame
    rw [closeFrame_cfg, closeFrame_cfg, h.cfg]
    exact (h.closeFrame c).keyButton (hs.closeFrame c) (hu.closeFrame c) c _
  · exact h.next

/-- R30: the environment's operations read the session below `len` only. -/
theorem exec_environment (h : s.AlikeNow u) (hs : s.Inv) (hu : u.Inv) {i : Instr}
    (hi : i.format = .opbyte) : AlikeNext (exec i s) (exec i u) := by
  obtain ⟨c, rfl⟩ | ⟨c, rfl⟩ | ⟨c, rfl⟩ | rfl | rfl := (format_eq_opbyte_iff i).mp hi
  · exact (h.capture c 0).next
  · exact (h.capture c 1).next
  · exact h.pollChannel hs hu c
  · obtain ⟨t, v, ht, hv, htv⟩ := h.pollChannel hs hu .ch1
    obtain ⟨t', v', ht', hv', h'⟩ := htv.pollChannel (hs.pollChannel ht) (hu.pollChannel hv) .ch2
    exact ⟨t', v', andThen_eq_next.mpr ⟨t, ht, ht'⟩, andThen_eq_next.mpr ⟨v, hv, hv'⟩, h'⟩
  · exact h.resetUnit.next

end State.AlikeNow

/-- R13, R81: a record brings its own samples, so the clocks before it do not matter. -/
theorem State.Alike.applyRecord {s u : State} (h : s.Alike u) (r : Record) (rest : List Record) :
    (applyRecord r rest s).AlikeNow (applyRecord r rest u) where
  cfg := h.cfg
  out := h.out
  chan c := by simpa using h.chan c
  nowUs := by simp [h.cfg]
  nowMs := by simp [h.cfg]

/-! ### Traces of the environment (R81, R85) -/

/-- R85: the record of an environment's operation names it, whatever the parameters. -/
theorem decode_encode_environment (cfg cfg' : Config) {i : Instr} (hi : i.format = .opbyte) :
    decode cfg i.format (encode cfg' i) = .ok i := by
  obtain ⟨c, rfl⟩ | ⟨c, rfl⟩ | ⟨c, rfl⟩ | rfl | rfl := (format_eq_opbyte_iff i).mp hi
  · cases c <;> rfl
  · cases c <;> rfl
  · cases c <;> rfl
  · rfl
  · rfl

/-- The record of an environment's operation, first in the input, runs it. -/
theorem step_environment {cfg : Config} {s : State} {a : Applied} {rest : List Record}
    (ha : a.op.format = .opbyte) (hin : s.input = a.record cfg :: rest) :
    step s = exec a.op (applyRecord (a.record cfg) rest s) :=
  step_of_schedulable hin (decode_encode_environment s.cfg cfg ha)
    ((schedulable_iff a.op).mpr (.inl ha))

theorem State.Inv.load {s : State} (h : s.Inv) (trace : List Record) : (s.load trace).Inv :=
  { h with }

theorem State.Alike.load {s u : State} (h : s.Alike u) (trace : List Record) :
    (s.load trace).Alike (u.load trace) :=
  { h with chan := fun c => by cases c; exacts [h.chan .ch1, h.chan .ch2] }

/-- Two runs of one trace from states that show the same complete and show the same. -/
theorem run_alike (cfg : Config) (trace : List Applied)
    (htrace : ∀ a ∈ trace, a.op.format = .opbyte) {s u : State} (hs : s.Inv) (hu : u.Inv)
    (h : s.Alike u) (hsin : s.input = trace.map (Applied.record cfg))
    (huin : u.input = trace.map (Applied.record cfg)) :
    ∃ t v, run trace.length s = .next t ∧ run trace.length u = .next v ∧ t.Alike v := by
  induction trace generalizing s u with
  | nil => exact ⟨s, u, rfl, rfl, h⟩
  | cons a trace ih =>
    obtain ⟨ha, htrace⟩ := List.forall_mem_cons.mp htrace
    have hs' := hs.applyRecord (a.record cfg) (trace.map (Applied.record cfg))
    have hu' := hu.applyRecord (a.record cfg) (trace.map (Applied.record cfg))
    obtain ⟨t, v, ht, hv, htv⟩ := (h.applyRecord _ _).exec_environment hs' hu' ha
    obtain ⟨t', v', ht', hv', h'⟩ := ih htrace (hs'.exec_environment ha ht)
      (hu'.exec_environment ha hv) htv.toAlike (exec_sameInputs ht).input (exec_sameInputs hv).input
    exact ⟨t', v', andThen_eq_next.mpr ⟨t, (step_environment ha hsin).trans ht, ht'⟩,
      andThen_eq_next.mpr ⟨v, (step_environment ha huin).trans hv, hv'⟩, h'⟩

/-- Settles O51: cells at or beyond `len` stay hidden along both runs. -/
theorem cellsBeyondLengthAreUnobservable : Obligations.CellsBeyondLengthAreUnobservable := by
  intro s u trace hs hu hcfg hout hchan htrace
  have h : s.Alike u := ⟨hcfg.symm, hout.symm, fun c => .of_eq_of_read (hchan c).1 (hchan c).2⟩
  rw [← hcfg]
  obtain ⟨t, v, ht, hv, htv⟩ := run_alike s.cfg trace (fun a ha => beq_iff_eq.mp (htrace a ha))
    (hs.load _) (hu.load _) (h.load _) rfl rfl
  exact ⟨t, v, ht, hv, htv.observed_eq⟩

end Sys2Proof.Machine
end

section
/-! SUPPORT. The statements of 20_memory.md: an edge or a poll of one channel is a function of that
channel's registers, the parameters and the clocks (R60), from which two channels' operations commute
and an edge and a closing poll of one channel are ordered without losing a bit (R64); and when KEY
stops (R51). -/

namespace Sys2Proof.Machine

/-! ### When a button stops (R51, R52, R136) -/

theorem thenDo_eq_fault {a : Answer} {f : State → State} {r : Fault} :
    thenDo a f = .fault r ↔ a = .fault r := by
  cases a <;> simp [thenDo]

/-- R138, with its two conditions spelled out. -/
theorem dropStale_eq_ite (c : Chan) (s : State) : dropStale c s =
    if (s.chan c).len ≠ 0 ∧ s.cfg.buttonTimeoutMs < elapsed s.cfg s.nowMs (s.chan c).last
    then s.setChan c { s.chan c with len := 0 } else s := by
  simp only [dropStale, stale_iff]

/-- R170: a button is never refused. -/
theorem keyButton_ne_refused (c : Chan) (code : Nat) (s : State) (r : Refusal) :
    keyButton c code s ≠ .refused r := by
  obtain ⟨-, h⟩ | ⟨-, -, h⟩ | ⟨-, -, h⟩ | ⟨j, h⟩ := keyButton_cases c code s <;> simp [h]

/-- Settles O55: KEY is the dispatched action followed by a timestamp, which cannot stop. -/
theorem keyFaultsAsItsActionFaults : Obligations.KeyFaultsAsItsActionFaults := by
  intro c code s k s1 action
  have hs1 : s1 = dropStale c s := (dropStale_eq_ite c s).symm
  have haction : action = buttonAction c code (dropStale c s) := by
    rw [buttonAction, dropStale_cfg, ← hs1]
    rfl
  refine ⟨fun f => ?_, keyButton_ne_refused c code s, fun f hf hinv => ?_⟩
  · rw [haction]
    exact thenDo_eq_fault.symm
  · obtain ⟨t, ht⟩ := keyButton_next (code := code) hinv.cfg (hinv.chan c).len_le
    cases ht.symm.trans hf

/-! ### What an operation on one channel does, as a function of that channel (R60) -/

/-- The registers an operation leaves in its channel, and the events it logs. -/
structure Effect where
  chan : Channel
  events : List Event

/-- The state an effect on channel `c` leaves. -/
def State.perform (s : State) (c : Chan) (e : Effect) : State :=
  { s.setChan c e.chan with out := s.out ++ e.events }

section
variable (s : State) (c : Chan) (e : Effect)

@[simp] theorem perform_out : (s.perform c e).out = s.out ++ e.events := rfl
@[simp] theorem perform_cfg : (s.perform c e).cfg = s.cfg := setChan_cfg s c e.chan
@[simp] theorem perform_nowUs : (s.perform c e).nowUs = s.nowUs := setChan_nowUs s c e.chan
@[simp] theorem perform_nowMs : (s.perform c e).nowMs = s.nowMs := setChan_nowMs s c e.chan
@[simp] theorem perform_chan : (s.perform c e).chan c = e.chan := by cases c <;> rfl
@[simp] theorem perform_chan_of_ne {d : Chan} (h : d ≠ c) : (s.perform c e).chan d = s.chan d :=
  chan_setChan_of_ne s c d e.chan h
@[simp] theorem perform_of_setChan (k : Channel) :
    (s.setChan c k).perform c e = s.perform c e := by cases c <;> rfl

theorem perform_nil (k : Channel) : s.perform c ⟨k, []⟩ = s.setChan c k := by
  cases c <;> simp [State.perform, State.setChan]
theorem perform_singleton (k : Channel) (ev : Event) :
    s.perform c ⟨k, [ev]⟩ = (s.emit ev).setChan c k := by cases c <;> rfl

end

/-- R138 on the channel. -/
def Channel.dropStale (cfg : Config) (ms : Nat) (k : Channel) : Channel :=
  if stale cfg ms k then { k with len := 0 } else k

/-- R114 on the channel. -/
def Channel.close (k : Channel) : Channel := { k with buf := 0, cnt := 0, frameOpen := false }

/-- R142, R144, R146: the button's own action. -/
def buttonEffect (cfg : Config) (c : Chan) (code : Nat) (k : Channel) : Effect :=
  if code = cfg.keyEsc then ⟨{ k with len := 0 }, []⟩
  else if code = cfg.keyEnt then ⟨{ k with aux := auxFlag k, len := 0 }, [.pass k.passcode c]⟩
  else ⟨appendChannel cfg code k, []⟩

/-- R136, R137: KEY. -/
def keyEffect (cfg : Config) (ms : Nat) (c : Chan) (code : Nat) (k : Channel) : Effect :=
  let e := buttonEffect cfg c code (k.dropStale cfg ms)
  { e with chan := { e.chan with last := ms } }

/-- R110: POLL. -/
def pollEffect (cfg : Config) (us ms : Nat) (c : Chan) (k : Channel) : Effect :=
  if k.frameOpen && quietOver cfg us k then
    if isCredential k then ⟨k.close, [.cred (decValue cfg (credentialValue k.buf)) c]⟩
    else keyEffect cfg ms c (buttonCode cfg k.buf) k.close
  else ⟨k, []⟩

section
variable {cfg : Config} {us ms : Nat} {c : Chan} {k : Channel}

theorem pollEffect_of_credential (hopen : k.frameOpen = true) (hquiet : quietOver cfg us k = true)
    (hcnt : k.cnt = credentialWidth) : pollEffect cfg us ms c k =
      ⟨k.close, [.cred (decValue cfg (credentialValue k.buf)) c]⟩ := by
  simp [pollEffect, hopen, hquiet, isCredential, hcnt]

theorem pollEffect_of_button (hopen : k.frameOpen = true) (hquiet : quietOver cfg us k = true)
    (hcnt : k.cnt ≠ credentialWidth) : pollEffect cfg us ms c k =
      keyEffect cfg ms c (buttonCode cfg k.buf) k.close := by
  simp [pollEffect, hopen, hquiet, isCredential, hcnt]

end

theorem Channel.dropStale_len_le (cfg : Config) (ms : Nat) (k : Channel) :
    (k.dropStale cfg ms).len ≤ k.len := by
  unfold Channel.dropStale; split_ifs <;> simp

theorem dropStale_eq_setChan (c : Chan) (s : State) :
    dropStale c s = s.setChan c ((s.chan c).dropStale s.cfg s.nowMs) := by
  unfold Machine.dropStale Channel.dropStale
  split_ifs <;> simp

theorem closeFrame_eq_setChan (c : Chan) (s : State) :
    closeFrame c s = s.setChan c (s.chan c).close := rfl

theorem stampLast_perform (c : Chan) (s : State) (e : Effect) : stampLast c (s.perform c e) =
    s.perform c { e with chan := { e.chan with last := s.nowMs } } := by
  cases c <;> rfl

theorem buttonAction_eq_perform {c : Chan} {s : State} (hcfg : s.cfg.Wf)
    (hlen : (s.chan c).len ≤ s.cfg.pcap) (code : Nat) :
    buttonAction c code s = .next (s.perform c (buttonEffect s.cfg c code (s.chan c))) := by
  unfold buttonAction buttonEffect
  split_ifs
  · rw [perform_nil, escape]
  · rw [perform_singleton, enter_next hlen]
  · rw [perform_nil, appendDigit_next hcfg]

theorem keyButton_eq_perform {c : Chan} {s : State} (hcfg : s.cfg.Wf)
    (hlen : (s.chan c).len ≤ s.cfg.pcap) (code : Nat) :
    keyButton c code s = .next (s.perform c (keyEffect s.cfg s.nowMs c code (s.chan c))) := by
  have hfresh := Channel.dropStale_len_le s.cfg s.nowMs (s.chan c)
  rw [keyButton, dropStale_eq_setChan,
    buttonAction_eq_perform (by simpa using hcfg) (by simpa using hfresh.trans hlen), thenDo_next,
    stampLast_perform]
  simp [keyEffect]

/-- KEY on a channel whose frame the poll has just closed. -/
theorem keyButton_closeFrame {c : Chan} {s : State} (hcfg : s.cfg.Wf)
    (hlen : (s.chan c).len ≤ s.cfg.pcap) (code : Nat) : keyButton c code (closeFrame c s) =
      .next (s.perform c (keyEffect s.cfg s.nowMs c code (s.chan c).close)) := by
  rw [keyButton_eq_perform (by simpa using hcfg) (by simpa using hlen), closeFrame_eq_setChan]
  simp

theorem pollChannel_eq_perform {c : Chan} {s : State} (hcfg : s.cfg.Wf)
    (hlen : (s.chan c).len ≤ s.cfg.pcap) : pollChannel c s =
      .next (s.perform c (pollEffect s.cfg s.nowUs s.nowMs c (s.chan c))) := by
  obtain ⟨hwait, h⟩ | ⟨hopen, hquiet, hcnt, h⟩ | ⟨hopen, hquiet, hcnt, h⟩ := pollChannel_cases c s
  · have heffect : pollEffect s.cfg s.nowUs s.nowMs c (s.chan c) = ⟨s.chan c, []⟩ := by
      obtain hidle | hyoung := hwait <;> simp [pollEffect, *]
    rw [h, heffect, perform_nil, setChan_chan_self]
  · rw [h, pollEffect_of_credential hopen hquiet hcnt, perform_singleton, closeFrame_eq_setChan,
      emit_setChan]
  · rw [h, pollEffect_of_button hopen hquiet hcnt, keyButton_closeFrame hcfg hlen]

theorem exec_edgeOf (c : Chan) (b : Bit) (s : State) :
    exec (edgeOf c b) s = .next (capture c b s) := by
  obtain rfl | rfl : b = 0 ∨ b = 1 := by revert b; decide
  · rfl
  · rfl

theorem capture_eq_perform (c : Chan) (b : Bit) (s : State) :
    capture c b s = s.perform c ⟨captureBit s.cfg b s.nowUs (s.chan c), []⟩ :=
  (perform_nil s c _).symm

/-! ### What an effect is made of -/

/-- R142, R144, R146: the actions write the session, never the frame. -/
theorem buttonEffect_frame (cfg : Config) (c : Chan) (code : Nat) (k : Channel) :
    (buttonEffect cfg c code k).chan.buf = k.buf ∧ (buttonEffect cfg c code k).chan.cnt = k.cnt ∧
    (buttonEffect cfg c code k).chan.frameOpen = k.frameOpen := by
  unfold buttonEffect appendChannel
  split_ifs <;> exact ⟨rfl, rfl, rfl⟩

theorem keyEffect_frame (cfg : Config) (ms : Nat) (c : Chan) (code : Nat) (k : Channel) :
    (keyEffect cfg ms c code k).chan.buf = k.buf ∧ (keyEffect cfg ms c code k).chan.cnt = k.cnt ∧
    (keyEffect cfg ms c code k).chan.frameOpen = k.frameOpen := by
  have hframe := buttonEffect_frame cfg c code (k.dropStale cfg ms)
  unfold Channel.dropStale at hframe
  unfold keyEffect Channel.dropStale
  split_ifs at hframe ⊢ <;> exact hframe

/-- R144, R165: a button logs nothing, or one passcode of its channel. -/
theorem keyEffect_events (cfg : Config) (ms : Nat) (c : Chan) (code : Nat) (k : Channel) :
    (keyEffect cfg ms c code k).events = [] ∨
      ∃ digits, (keyEffect cfg ms c code k).events = [.pass digits c] := by
  unfold keyEffect buttonEffect
  split_ifs
  exacts [.inl rfl, .inr ⟨_, rfl⟩, .inl rfl]

theorem keyEffect_events_ne_cred (cfg : Config) (ms : Nat) (c : Chan) (code : Nat) (k : Channel)
    (id : Nat) : (keyEffect cfg ms c code k).events ≠ [.cred id c] := by
  obtain h | ⟨digits, h⟩ := keyEffect_events cfg ms c code k <;> simp [h]

/-- An effect logs at most one event, of the channel that was addressed. -/
def Effect.LogsOnly (c : Chan) (e : Effect) : Prop :=
  e.events.length ≤ 1 ∧ ∀ ev ∈ e.events, ev.chan = c

theorem keyEffect_logsOnly (cfg : Config) (ms : Nat) (c : Chan) (code : Nat) (k : Channel) :
    (keyEffect cfg ms c code k).LogsOnly c := by
  obtain h | ⟨digits, h⟩ := keyEffect_events cfg ms c code k <;>
    simp [Effect.LogsOnly, h, Event.chan]

theorem pollEffect_logsOnly (cfg : Config) (us ms : Nat) (c : Chan) (k : Channel) :
    (pollEffect cfg us ms c k).LogsOnly c := by
  unfold pollEffect
  split_ifs
  · simp [Effect.LogsOnly, Event.chan]
  · exact keyEffect_logsOnly cfg ms c _ _
  · simp [Effect.LogsOnly]

/-- A closing poll leaves the channel idle (R110, R114). -/
theorem pollEffect_closes {cfg : Config} {us : Nat} {k : Channel} (hopen : k.frameOpen = true)
    (hquiet : quietOver cfg us k = true) (ms : Nat) (c : Chan) :
    (pollEffect cfg us ms c k).chan.frameOpen = false := by
  by_cases hcnt : k.cnt = credentialWidth
  · rw [pollEffect_of_credential hopen hquiet hcnt]
    rfl
  · obtain ⟨-, -, hidle⟩ := keyEffect_frame cfg ms c (buttonCode cfg k.buf) k.close
    rw [pollEffect_of_button hopen hquiet hcnt]
    exact hidle

/-! ### Two channels (R60, R190) -/

/-- Operation `i` addresses channel `c` alone: whatever the rest of the state, it completes, and what it
does is a function of the parameters, the clocks and the registers of `c`. -/
structure IsLocal (c : Chan) (i : Instr) (effect : Config → Nat → Nat → Channel → Effect) :
    Prop where
  exec_eq : ∀ s : State, s.cfg.Wf → (s.chan c).len ≤ s.cfg.pcap →
    exec i s = .next (s.perform c (effect s.cfg s.nowUs s.nowMs (s.chan c)))
  logsOnly : ∀ cfg us ms k, (effect cfg us ms k).LogsOnly c

theorem edgeOf_isLocal (c : Chan) (b : Bit) :
    IsLocal c (edgeOf c b) fun cfg us _ k => ⟨captureBit cfg b us k, []⟩ where
  exec_eq s _ _ := by rw [exec_edgeOf, capture_eq_perform]
  logsOnly _ _ _ _ := by simp [Effect.LogsOnly]

theorem poll_isLocal (c : Chan) :
    IsLocal c (.poll c) fun cfg us ms k => pollEffect cfg us ms c k where
  exec_eq _ hcfg hlen := pollChannel_eq_perform hcfg hlen
  logsOnly cfg us ms k := pollEffect_logsOnly cfg us ms c k

theorem exists_isLocal {c : Chan} {i : Instr} (hi : i ∈ [.edge0 c, .edge1 c, .poll c]) :
    ∃ effect, IsLocal c i effect := by
  simp only [List.mem_cons, List.not_mem_nil, or_false] at hi
  obtain rfl | rfl | rfl := hi
  exacts [⟨_, edgeOf_isLocal c 0⟩, ⟨_, edgeOf_isLocal c 1⟩, ⟨_, poll_isLocal c⟩]

/-- After an operation on another channel, an operation does what it would have done before it. -/
theorem IsLocal.exec_andThen {c d : Chan} (hcd : c ≠ d) {i j : Instr}
    {f g : Config → Nat → Nat → Channel → Effect} (hi : IsLocal c i f) (hj : IsLocal d j g)
    {s : State} (hs : s.Inv) : andThen (exec i s) (exec j) =
      .next ((s.perform c (f s.cfg s.nowUs s.nowMs (s.chan c))).perform d
        (g s.cfg s.nowUs s.nowMs (s.chan d))) := by
  rw [hi.exec_eq s hs.cfg (hs.chan c).len_le, andThen_next,
    hj.exec_eq _ (by simpa using hs.cfg) (by simpa [hcd.symm] using (hs.chan d).len_le)]
  simp [hcd.symm]

/-- Settles O52: each of the two effects is computed from its own channel, which the other operation
does not write. -/
theorem operationsOnTwoChannelsCommute : Obligations.OperationsOnTwoChannelsCommute := by
  intro i j s hs hi hj
  obtain ⟨f, hf⟩ := exists_isLocal hi
  obtain ⟨g, hg⟩ := exists_isLocal hj
  obtain ⟨hlen1, hch1⟩ := hf.logsOnly s.cfg s.nowUs s.nowMs (s.chan .ch1)
  obtain ⟨hlen2, hch2⟩ := hg.logsOnly s.cfg s.nowUs s.nowMs (s.chan .ch2)
  exact ⟨_, _, hf.exec_andThen (by decide) hg hs, hg.exec_andThen (by decide) hf hs, rfl, rfl,
    _, _, rfl, rfl, hlen1, hlen2, hch1, hch2⟩

/-! ### An edge and a closing poll at one instant (R64) -/

/-- Only a count of 25 becomes a credential's with one bit more. -/
theorem satInc_eq_credentialWidth_iff {cfg : Config} (h : cfg.Wf) (n : Nat) :
    satInc cfg n = credentialWidth ↔ n = 25 := by
  have hmax := credentialWidth_lt h
  unfold satInc credentialWidth
  split_ifs <;> omega

/-- R100: the first bit of a frame is its whole value. -/
theorem shiftIn_zero {cfg : Config} (h : cfg.Wf) (b : Bit) : shiftIn cfg 0 b = b.toNat := by
  have hle : 2 ^ credentialWidth ≤ 2 ^ cfg.bufw := Nat.pow_le_pow_right two_pos h.credential_le_bufw
  have hb := b.isLt
  rw [shiftIn_eq, Nat.mul_zero, Nat.zero_add]
  exact Nat.mod_eq_of_lt (hb.trans (hle.trans_lt' (by decide)))

/-- R74: the button in the low bits of a frame that ends in the bit. -/
theorem buttonCode_shiftIn {cfg : Config} (h : cfg.Wf) (buf : Nat) (b : Bit) :
    buttonCode cfg (shiftIn cfg buf b) = (2 * buf + b.toNat) % 2 ^ cfg.keyw := by
  rw [buttonCode, shiftIn_eq, Nat.mod_mod_of_dvd _ (Nat.pow_dvd_pow 2 h.keyw_le)]

/-- R73, R128: the id of a frame of 25 bits that a 26th ends. -/
theorem decValue_shiftIn {cfg : Config} (h : cfg.Wf) {buf : Nat} (hbuf : buf < 2 ^ 25) (b : Bit) :
    decValue cfg (credentialValue (shiftIn cfg buf b)) =
      if cfg.fmt = 0 then 2 * buf + b.toNat else buf % 2 ^ 24 := by
  have hle : 2 ^ 26 ≤ 2 ^ cfg.bufw := Nat.pow_le_pow_right two_pos h.credential_le_bufw
  have hb := b.isLt
  have hshift : shiftIn cfg buf b = 2 * buf + b.toNat := by
    rw [shiftIn_eq]
    exact Nat.mod_eq_of_lt (by omega)
  rw [decValue_credentialValue h, hshift]
  split_ifs <;> omega

/-- R62, R100: after the poll that closes a frame, an edge opens a frame of one bit. -/
theorem poll_andThen_edge {c : Chan} {s : State} (hs : s.Inv) (hopen : (s.chan c).frameOpen = true)
    (hquiet : quietOver s.cfg s.nowUs (s.chan c) = true) (b : Bit) :
    ∃ t, andThen (exec (.poll c) s) (exec (edgeOf c b)) = .next t ∧
      (t.chan c).frameOpen = true ∧ (t.chan c).cnt = 1 ∧ (t.chan c).buf = b.toNat ∧
      (t.chan c).ts = s.nowUs := by
  have hidle := pollEffect_closes hopen hquiet s.nowMs c
  refine ⟨_, by rw [(poll_isLocal c).exec_eq s hs.cfg (hs.chan c).len_le, andThen_next,
    exec_edgeOf], ?_⟩
  have hcnt : satInc s.cfg 0 = 1 := if_pos (by have := credentialWidth_lt hs.cfg; omega)
  simp [captureBit_of_idle hidle, shiftIn_zero hs.cfg, hcnt]

section
variable {c : Chan} {s : State} (hs : s.Inv) (hopen : (s.chan c).frameOpen = true)
  (hquiet : quietOver s.cfg s.nowUs (s.chan c) = true) (b : Bit)
include hs

/-- R15: the poll after an edge sees the frame with the bit. -/
theorem edge_andThen_poll : andThen (exec (edgeOf c b) s) (exec (.poll c)) =
    .next (s.perform c (pollEffect s.cfg s.nowUs s.nowMs c
      (captureBit s.cfg b s.nowUs (s.chan c)))) := by
  rw [exec_edgeOf, andThen_next, (poll_isLocal c).exec_eq _ (by simpa using hs.cfg)
    (by simpa using (hs.chan c).len_le), capture]
  simp

include hopen hquiet

/-- R72, R100: 25 bits and one more are the credential that ends in it. -/
theorem edge_andThen_poll_credential (hcnt : (s.chan c).cnt = 25) :
    andThen (exec (edgeOf c b) s) (exec (.poll c)) = .next (s.perform c ⟨(s.chan c).close,
      [.cred (if s.cfg.fmt = 0 then 2 * (s.chan c).buf + b.toNat else (s.chan c).buf % 2 ^ 24)
        c]⟩) := by
  have hmax := credentialWidth_lt hs.cfg
  have hle : 26 ≤ s.cfg.bufw := hs.cfg.credential_le_bufw
  have hbuf : (s.chan c).buf < 2 ^ 25 :=
    hcnt ▸ (hs.chan c).buf_lt_count (by rw [hcnt]; omega) (by rw [hcnt]; omega)
  rw [edge_andThen_poll hs, captureBit_of_open hopen,
    pollEffect_of_credential (by exact hopen) (by exact hquiet)
      (by exact (satInc_eq_credentialWidth_iff hs.cfg _).mpr hcnt), decValue_shiftIn hs.cfg hbuf]
  rfl

/-- R74, R100: any other number of bits and one more are the button that ends in it. -/
theorem edge_andThen_poll_button (hcnt : (s.chan c).cnt ≠ 25) :
    andThen (exec (edgeOf c b) s) (exec (.poll c)) = .next (s.perform c (keyEffect s.cfg s.nowMs c
      ((2 * (s.chan c).buf + b.toNat) % 2 ^ s.cfg.keyw) (s.chan c).close)) := by
  rw [edge_andThen_poll hs, captureBit_of_open hopen,
    pollEffect_of_button (by exact hopen) (by exact hquiet)
      (by exact mt (satInc_eq_credentialWidth_iff hs.cfg _).mp hcnt), buttonCode_shiftIn hs.cfg]
  rfl

end

/-- Settles O18: poll first, the bit opens a frame; edge first, it ends the frame that is classified. -/
theorem edgeAndPollAtOnceLoseNoBit : Obligations.EdgeAndPollAtOnceLoseNoBit := by
  intro c b s hs hopen hquiet k closed
  replace hquiet := (quietOver_iff s.cfg s.nowUs k).mpr hquiet
  refine ⟨poll_andThen_edge hs hopen hquiet b, ?_⟩
  by_cases hcnt : k.cnt = 25
  · refine ⟨_, edge_andThen_poll_credential hs hopen hquiet b hcnt, ?_⟩
    rw [perform_chan]
    exact ⟨rfl, rfl, rfl, fun _ => rfl, fun hne => absurd hcnt hne⟩
  · refine ⟨_, edge_andThen_poll_button hs hopen hquiet b hcnt, ?_⟩
    obtain ⟨hbuf, hcount, hidle⟩ := keyEffect_frame s.cfg s.nowMs c
      ((2 * k.buf + b.toNat) % 2 ^ s.cfg.keyw) k.close
    rw [perform_chan]
    refine ⟨hidle, hcount, hbuf, fun h => absurd h hcnt, fun _ =>
      ⟨keyButton_closeFrame hs.cfg (hs.chan c).len_le _, fun id hid => ?_⟩⟩
    exact keyEffect_events_ne_cred s.cfg s.nowMs c _ k.close id (List.append_cancel_left hid)

end Sys2Proof.Machine
end

section
/-! SUPPORT. The statements of 30_encoding.md: the decoder and the encoder undo each other (R73,
R75, R85), a step runs what a record names (R81, R82), the closing poll runs the internal operations
(R82), and a card's trace is reported (R84). -/

namespace Sys2Proof.Machine

/-! ### The operation byte (R85) -/

/-- R85's list, by evaluation at each of the 256 bytes. -/
theorem decodeOpByte_eq (b : Byte) : decodeOpByte b =
    if b = 0x10 then .ok (.edge0 .ch1) else if b = 0x11 then .ok (.edge1 .ch1)
    else if b = 0x12 then .ok (.edge0 .ch2) else if b = 0x13 then .ok (.edge1 .ch2)
    else if b = 0x20 then .ok (.poll .ch1) else if b = 0x22 then .ok (.poll .ch2)
    else if b = 0x30 then .ok .pollall else if b = 0xF0 then .ok .reset
    else .error (.reservedOpByte b) := by
  revert b; decide

theorem encode_of_decodeOpByte (cfg : Config) {b : Byte} {i : Instr}
    (h : decodeOpByte b = .ok i) : i.format = .opbyte ∧ encode cfg i = [b] := by
  rw [decodeOpByte_eq] at h
  split_ifs at h with hb <;> cases h <;> subst b <;> exact ⟨rfl, rfl⟩

theorem wellFormed_of_opbyte (cfg : Config) {i : Instr} (hi : i.format = .opbyte) :
    i.wellFormed cfg = true := by
  obtain ⟨c, rfl⟩ | ⟨c, rfl⟩ | ⟨c, rfl⟩ | rfl | rfl := (format_eq_opbyte_iff i).mp hi <;> rfl

/-! ### The other formats (R36, R73, R75, R161, R162) -/

theorem exceptMap_eq_ok {α β : Type} {f : α → β} {x : Except DecodeError α} {b : β} :
    x.map f = .ok b ↔ ∃ a, x = .ok a ∧ f a = b := by
  cases x <;> simp [Except.map]

/-- A 26-bit frame is read back from its bytes. -/
theorem readValue_frame (f : Format) (v : RawFrame) :
    readValue f credentialWidth (valueBytes credentialWidth v.toNat) = .ok v.toNat :=
  readValue_valueBytes f v.isLt

theorem decode_dec0 (cfg : Config) (v : RawFrame) :
    decode cfg .fmt (0 :: valueBytes credentialWidth v.toNat) = .ok (.dec0 v) := by
  simp [decode, decodeFmt, readValue_frame, Except.map]

theorem decode_dec1 (cfg : Config) (v : RawFrame) :
    decode cfg .fmt (1 :: valueBytes credentialWidth v.toNat) = .ok (.dec1 v) := by
  simp [decode, decodeFmt, readValue_frame, Except.map]

/-- A number of `CREDENTIAL_WIDTH` bits is a frame. -/
theorem toNat_frame_ofNat {v : Nat} (h : v < 2 ^ credentialWidth) : (BitVec.ofNat 26 v).toNat = v :=
  (BitVec.toNat_ofNat v 26).trans (Nat.mod_eq_of_lt h)

theorem encode_of_decodeFmt (cfg : Config) {sel : Byte} {rest : List Byte} {i : Instr}
    (h : decodeFmt sel rest = .ok i) :
    i.wellFormed cfg = true ∧ i.format = .fmt ∧ encode cfg i = sel :: rest := by
  unfold decodeFmt at h
  split_ifs at h with h0 h1
  · obtain ⟨v, hread, rfl⟩ := exceptMap_eq_ok.mp h
    obtain ⟨hv, rfl⟩ := readValue_eq_ok.mp hread
    exact ⟨rfl, rfl, by rw [encode, toNat_frame_ofNat hv, h0]⟩
  · obtain ⟨v, hread, rfl⟩ := exceptMap_eq_ok.mp h
    obtain ⟨hv, rfl⟩ := readValue_eq_ok.mp hread
    exact ⟨rfl, rfl, by rw [encode, toNat_frame_ofNat hv, h1]⟩

theorem w26OfValue_frameValue (c : Chan) (l : Bit) (id : Payload) (t : Bit) :
    w26OfValue c (frameValue l id t) = .w26 c l id t := by
  obtain ⟨hl, hid, ht⟩ := frameValue_fields l id t
  rw [w26OfValue, hl, hid, ht]

theorem encode_w26OfValue (cfg : Config) (c : Chan) (v : RawFrame) :
    encode cfg (w26OfValue c v) = valueBytes credentialWidth v.toNat ++ [chanByte c] := by
  rw [w26OfValue, encode, frameValue_of_fields]

/-- R75: the code of a button, whichever of the three it is, is what its record holds. -/
theorem encode_buttonOfCode (cfg : Config) (c : Chan) (code : Nat) :
    encode cfg (buttonOfCode cfg c code) = valueBytes cfg.keyw code ++ [chanByte c] := by
  unfold buttonOfCode
  split_ifs with hesc hent
  · rw [encode, hesc]
  · rw [encode, hent]
  · rfl

theorem buttonOfCode_format (cfg : Config) (c : Chan) (code : Nat) :
    (buttonOfCode cfg c code).format = .button := by
  unfold buttonOfCode; split_ifs <;> rfl

theorem buttonOfCode_wellFormed {cfg : Config} {code : Nat} (h : code < 2 ^ cfg.keyw) (c : Chan) :
    (buttonOfCode cfg c code).wellFormed cfg = true := by
  unfold buttonOfCode
  split_ifs with hesc hent
  · rfl
  · rfl
  · simp [Instr.wellFormed, isPlainButton, fits, h, hesc, hent]

theorem encode_of_decodeLine {cfg : Config} {tag ch : Byte} {rest : List Byte} {i : Instr}
    (h : decodeLine cfg tag ch rest = .ok i) :
    i.wellFormed cfg = true ∧ i.format = .line ∧ encode cfg i = tag :: ch :: rest := by
  unfold decodeLine at h
  split at h
  case h_1 => cases h
  case h_2 c hc =>
    obtain rfl := chanOfByte_eq_ok.mp hc
    split_ifs at h with hf hp hdigits
    · obtain ⟨id, hid, rfl⟩ := exceptMap_eq_ok.mp h
      obtain ⟨hfits, rfl⟩ := readValue_eq_ok.mp hid
      exact ⟨decide_eq_true hfits, rfl, by rw [encode, hf]⟩
    · cases h
      exact ⟨hdigits, rfl, by rw [encode, hp]⟩

/-! ### Decoding and encoding undo each other -/

/-- Settles O3, format by format. -/
theorem decodeReadsBackEncode : Obligations.DecodeReadsBackEncode := by
  intro cfg i hcfg hi
  cases i with
  | edge0 c => exact decode_encode_environment cfg cfg rfl
  | edge1 c => exact decode_encode_environment cfg cfg rfl
  | poll c => exact decode_encode_environment cfg cfg rfl
  | pollall => exact decode_encode_environment cfg cfg rfl
  | reset => exact decode_encode_environment cfg cfg rfl
  | dec0 v => exact decode_dec0 cfg v
  | dec1 v => exact decode_dec1 cfg v
  | w26 c l id t =>
    have hread := readValueChan_valueBytes .frame26 (frameValue l id t).isLt c
    exact exceptMap_eq_ok.mpr ⟨_, hread, by simp [w26OfValue_frameValue]⟩
  | wkey c v =>
    have hfits : v < 2 ^ cfg.bufw := of_decide_eq_true hi
    exact exceptMap_eq_ok.mpr ⟨_, readValueChan_valueBytes .framekey hfits c, rfl⟩
  | key c code =>
    have hfits : code < 2 ^ cfg.keyw := of_decide_eq_true hi
    exact exceptMap_eq_ok.mpr ⟨_, readValueChan_valueBytes .internal hfits c, rfl⟩
  | kesc c =>
    exact exceptMap_eq_ok.mpr ⟨_, readValueChan_valueBytes .button hcfg.esc_lt c, if_pos rfl⟩
  | kent c =>
    exact exceptMap_eq_ok.mpr ⟨_, readValueChan_valueBytes .button hcfg.ent_lt c,
      by simp [buttonOfCode, hcfg.esc_ne_ent.symm]⟩
  | kdigit c code =>
    simp only [Instr.wellFormed, isPlainButton, fits, Bool.and_eq_true, decide_eq_true_eq,
      bne_iff_ne] at hi
    obtain ⟨⟨hfits, hesc⟩, hent⟩ := hi
    exact exceptMap_eq_ok.mpr ⟨_, readValueChan_valueBytes .button hfits c,
      by simp [buttonOfCode, hesc, hent]⟩
  | rptf id ch =>
    have hfits : id < 2 ^ cfg.idw := of_decide_eq_true hi
    have hread := readValue_valueBytes .line hfits
    simp [Instr.format, encode, decode, decodeLine, hread, Except.map]
  | rptp digits ch =>
    have hdigits : isDigitString cfg digits = true := hi
    simp [Instr.format, encode, decode, decodeLine, hdigits]

/-- Settles O4, format by format. -/
theorem encodeRestoresDecodedBytes : Obligations.EncodeRestoresDecodedBytes := by
  intro cfg f bytes i _ h
  cases f with
  | opbyte =>
    match bytes, h with
    | [b], h =>
      obtain ⟨hformat, hbytes⟩ := encode_of_decodeOpByte cfg h
      exact ⟨wellFormed_of_opbyte cfg hformat, hformat, hbytes⟩
  | fmt =>
    match bytes, h with
    | sel :: rest, h => exact encode_of_decodeFmt cfg h
  | frame26 =>
    obtain ⟨⟨v, c⟩, hread, rfl⟩ := exceptMap_eq_ok.mp h
    obtain ⟨hv, rfl⟩ := readValueChan_eq_ok.mp hread
    exact ⟨rfl, rfl, by rw [encode_w26OfValue, toNat_frame_ofNat hv]⟩
  | framekey =>
    obtain ⟨⟨v, c⟩, hread, rfl⟩ := exceptMap_eq_ok.mp h
    obtain ⟨hv, rfl⟩ := readValueChan_eq_ok.mp hread
    exact ⟨decide_eq_true hv, rfl, rfl⟩
  | internal =>
    obtain ⟨⟨code, c⟩, hread, rfl⟩ := exceptMap_eq_ok.mp h
    obtain ⟨hcode, rfl⟩ := readValueChan_eq_ok.mp hread
    exact ⟨decide_eq_true hcode, rfl, rfl⟩
  | button =>
    obtain ⟨⟨code, c⟩, hread, rfl⟩ := exceptMap_eq_ok.mp h
    obtain ⟨hcode, rfl⟩ := readValueChan_eq_ok.mp hread
    exact ⟨buttonOfCode_wellFormed hcode c, buttonOfCode_format cfg c code,
      encode_buttonOfCode cfg c code⟩
  | line =>
    match bytes, h with
    | tag :: ch :: rest, h => exact encode_of_decodeLine h

/-! ### A step runs what its record names (R81, R82, R85) -/

/-- A record that names no operation is refused by the decoder's name for it. -/
theorem step_of_undecodable {s : State} {r : Record} {rest : List Record} {e : DecodeError}
    (h : s.input = r :: rest) (hd : decodeRecord s.cfg r = .error e) :
    step s = .refused (.undecodable e) := by
  simp only [step, h, hd]

/-- A record of an operation that cannot be applied by itself is refused. -/
theorem step_of_not_schedulable {s : State} {r : Record} {rest : List Record} {i : Instr}
    (h : s.input = r :: rest) (hd : decodeRecord s.cfg r = .ok i) (hi : i.schedulable = false) :
    step s = .refused (.notSchedulable i) := by
  simp [step, h, hd, hi]

/-- Settles O6: the record decides, whatever the rest of the state. -/
theorem stepAppliesDecodedOperation : Obligations.StepAppliesDecodedOperation := by
  intro s
  refine ⟨fun hnil => by simp [step, hnil], fun r rest hin =>
    ⟨fun i hd hi => step_of_schedulable hin hd ((schedulable_iff i).mpr hi),
      fun i hd hop hline => step_of_not_schedulable hin hd ?_,
      fun e hd => step_of_undecodable hin hd⟩⟩
  exact Bool.eq_false_iff.mpr fun hi => ((schedulable_iff i).mp hi).elim hop hline

/-- Settles O1, from R85's list and the refusal of a record that names nothing. -/
theorem operationByteNamesEightOperations : Obligations.OperationByteNamesEightOperations := by
  refine fun cfg b us ms => ⟨rfl, decodeOpByte_eq b, fun s rest hin hb => ?_⟩
  have hreserved : decodeOpByte b = .error (.reservedOpByte b) := by
    simp only [List.mem_cons, List.not_mem_nil, or_false, not_or] at hb
    simp only [decodeOpByte_eq, hb, if_false]
  exact step_of_undecodable hin hreserved

/-- R78: a selector other than 0 and 1 names no format. -/
theorem decodeFmt_of_two_le {sel : Byte} (h : 2 ≤ sel.toNat) (rest : List Byte) :
    decodeFmt sel rest = .error (.reservedFormat sel) := by
  have h0 : sel ≠ 0 := by rintro rfl; simp at h
  have h1 : sel ≠ 1 := by rintro rfl; simp at h
  rw [decodeFmt, if_neg h0, if_neg h1]

/-- Settles O2: one bit of configuration, two selectors. -/
theorem onlyDecodeFormatsZeroAndOne : Obligations.OnlyDecodeFormatsZeroAndOne := by
  have hbit : ∀ b : Bit, b = 0 ∨ b = 1 := by decide
  exact ⟨fun cfg => hbit cfg.fmt, fun cfg v => ⟨decode_dec0 cfg v, decode_dec1 cfg v⟩,
    fun s rest sel operand us ms hin hsel =>
      step_of_undecodable hin (decodeFmt_of_two_le hsel operand)⟩

/-! ### The trigger edge (R70) -/

/-- R7, R70: the one transition that `EDGE_POL` names. -/
theorem triggerEdge_iff (cfg : Config) (before after : Bool) :
    triggerEdge cfg before after = true ↔
      (cfg.edgePol = .falling ∧ before = true ∧ after = false) ∨
      (cfg.edgePol = .rising ∧ before = false ∧ after = true) := by
  cases hpol : cfg.edgePol <;> simp [triggerEdge, hpol]

/-- Settles O54: the edge is the operation of its channel and bit. -/
theorem oneOperationPerTriggerEdge : Obligations.OneOperationPerTriggerEdge := by
  intro cfg c b before after
  simp only [lineEvent, triggerEdge_iff]

/-! ### The closing poll runs the internal operations (R82, R110) -/

/-- R76 (b): the low bits of a frame's value are the frame. -/
theorem credentialValue_toNat (v : RawFrame) : credentialValue v.toNat = v :=
  BitVec.ofNat_toNat 26 v |>.trans (BitVec.setWidth_eq v)

/-- R73: the fields side by side are the fields shifted into place. -/
theorem frameValue_toNat_eq_or (l : Bit) (id : Payload) (t : Bit) :
    (frameValue l id t).toNat = (l.toNat <<< 25) ||| (id.toNat <<< 1) ||| t.toNat := by
  simp only [frameValue, BitVec.toNat_append, Nat.shiftLeft_or_distrib, ← Nat.shiftLeft_add]

/-- R127, R128, R130: what is reported of the frame `L id T`. -/
theorem decValue_frameValue {cfg : Config} (h : cfg.Wf) (l : Bit) (id : Payload) (t : Bit) :
    decValue cfg (frameValue l id t) =
      if cfg.fmt = 0 then (l.toNat <<< 25) ||| (id.toNat <<< 1) ||| t.toNat else id.toNat := by
  rw [← credentialValue_toNat (frameValue l id t), decValue_credentialValue h]
  split_ifs
  · rw [Nat.mod_eq_of_lt (frameValue l id t).isLt, frameValue_toNat_eq_or]
  · rw [frameValue_toNat]
    omega

/-- Settles O22. -/
theorem credentialFrameIsReported : Obligations.CredentialFrameIsReported := by
  intro c l id t s hcfg
  rw [← decValue_frameValue hcfg]
  rfl

/-- R137, R150: the timestamp comes last, whatever the action. -/
theorem keyButton_last {c : Chan} {code : Nat} {s t : State} (h : keyButton c code s = .next t) :
    (t.chan c).last = s.nowMs := by
  have hms := (keyButton_sameInputs h).nowMs
  obtain ⟨u, -, rfl⟩ := thenDo_eq_next.mp h
  simpa [stampLast] using hms

/-- Settles O28: WKEY is KEY of the code in the low bits. -/
theorem keypadFrameIsItsLowBits : Obligations.KeypadFrameIsItsLowBits := by
  refine fun c v s => ⟨rfl, fun hs => ?_⟩
  obtain ⟨t, ht⟩ := keyButton_next (code := buttonCode s.cfg v) hs.cfg (hs.chan c).len_le
  exact ⟨t, ht, keyButton_last ht⟩

section
variable {c : Chan} {s : State} (hopen : (s.chan c).frameOpen = true)
  (hquiet : quietOver s.cfg s.nowUs (s.chan c) = true)
include hopen hquiet

/-- R110 on a final frame of 26 bits. -/
theorem pollChannel_of_credential (hcnt : (s.chan c).cnt = credentialWidth) : pollChannel c s =
    .next (credentialFrame c (credentialValue (s.chan c).buf) (closeFrame c s)) := by
  simp [pollChannel, closeAndClassify, isCredential, hopen, hquiet, hcnt]

/-- R110 on a final frame of any other length. -/
theorem pollChannel_of_button (hcnt : (s.chan c).cnt ≠ credentialWidth) :
    pollChannel c s = keypadFrame c (s.chan c).buf (closeFrame c s) := by
  simp [pollChannel, closeAndClassify, isCredential, hopen, hquiet, hcnt]

end

/-- R126: the dispatch on `FMT` answers what `decValue` computes. -/
theorem exec_dec (v : RawFrame) (s : State) :
    exec (if s.cfg.fmt = 0 then .dec0 v else .dec1 v) s =
      .next (returnId (decValue s.cfg v) s) := by
  unfold decValue
  split_ifs <;> rfl

/-- R73: a frame is reported as the frame of its fields. -/
theorem exec_w26OfValue (c : Chan) (v : RawFrame) (s : State) :
    exec (w26OfValue c v) s = .next (credentialFrame c v s) := by
  rw [w26OfValue, exec, execW26, frameValue_of_fields]

/-- R110: a closing poll reports the frame it has closed, and nothing else. -/
theorem credentialFrame_closeFrame (c : Chan) (v : RawFrame) (s : State) :
    credentialFrame c v (closeFrame c s) =
      { closeFrame c s with out := s.out ++ [.cred (decValue s.cfg v) c] } := by
  cases c <;> rfl

/-- Settles O57: the closing poll is the credential branch or the keypad branch, on the channel it
has just reset. -/
theorem pollRunsTheInternalOperations : Obligations.PollRunsTheInternalOperations := by
  intro c s hcfg hopen hquiet k closed v
  replace hquiet := (quietOver_iff s.cfg s.nowUs k).mpr hquiet
  refine ⟨fun hcnt => ?_, fun hcnt => ?_⟩
  · have hpoll := pollChannel_of_credential hopen hquiet hcnt
    have hvalue := congrArg BitVec.toNat (frameValue_of_fields v)
    rw [frameValue_toNat_eq_or, BitVec.toNat_ofNat] at hvalue
    exact ⟨⟨_, _, _, hvalue, hpoll.trans (exec_w26OfValue c v closed).symm⟩,
      _, exec_dec v s, hpoll.trans (congrArg Host.Outcome.next (credentialFrame_closeFrame c v s))⟩
  · have hpoll := pollChannel_of_button hopen hquiet hcnt
    refine ⟨hpoll, ?_⟩
    rw [← closeFrame_cfg s c]
    exact hpoll

/-! ### A card's trace (R84, R101, R117) -/

/-- The number that bits stand for behind those of `v`, most significant first (R101). -/
def appendBits (v : Nat) (bits : List Bit) : Nat := bits.foldl (fun n b => 2 * n + b.toNat) v

theorem appendBits_append (v : Nat) (as bs : List Bit) :
    appendBits v (as ++ bs) = appendBits (appendBits v as) bs := List.foldl_append

theorem appendBits_eq (v : Nat) (bits : List Bit) :
    appendBits v bits = v * 2 ^ bits.length + appendBits 0 bits := by
  induction bits generalizing v with
  | nil => simp [appendBits]
  | cons b bits ih =>
    have hcons : ∀ n, appendBits n (b :: bits) = appendBits (2 * n + b.toNat) bits := fun _ => rfl
    rw [hcons, hcons, ih (2 * v + b.toNat), ih (2 * 0 + b.toNat), List.length_cons]
    ring

/-- The bits shifted out of the register do not come back (R104). -/
theorem appendBits_mod (v m : Nat) (bits : List Bit) :
    appendBits (v % m) bits % m = appendBits v bits % m := by
  rw [appendBits_eq, appendBits_eq v]
  exact ((Nat.mod_modEq v m).mul_right _).add_right _

/-- R84: the bits of a number append its value. -/
theorem appendBits_bitsMsbFirst (v w n : Nat) :
    appendBits v (bitsMsbFirst w n) = v * 2 ^ n + w % 2 ^ n := by
  induction n generalizing v with
  | zero => simp [bitsMsbFirst, appendBits, Nat.mod_one]
  | succ n ih =>
    calc appendBits v (bitsMsbFirst w (n + 1))
        = appendBits (2 * v + (w.testBit n).toNat) (bitsMsbFirst w n) := by
          simp [bitsMsbFirst, appendBits]
      _ = (2 * v + (w.testBit n).toNat) * 2 ^ n + w % 2 ^ n := ih _
      _ = v * 2 ^ (n + 1) + w % 2 ^ (n + 1) := by
        rw [Nat.mod_pow_succ, Nat.toNat_testBit]; ring

@[simp] theorem length_bitsMsbFirst (w n : Nat) : (bitsMsbFirst w n).length = n := by
  induction n with
  | zero => rfl
  | succ n ih => rw [bitsMsbFirst, List.length_cons, ih]

/-- The bits of `CARD c, L, id, T` in the order they are sent (R84). -/
def cardBits (l : Bit) (id : Payload) (t : Bit) : List Bit := l :: bitsMsbFirst id.toNat 24 ++ [t]

theorem length_cardBits (l : Bit) (id : Payload) (t : Bit) :
    (cardBits l id t).length = credentialWidth := by
  simp [cardBits, credentialWidth]

theorem appendBits_cardBits (l : Bit) (id : Payload) (t : Bit) :
    appendBits 0 (cardBits l id t) = (frameValue l id t).toNat := by
  have hl : appendBits 0 [l] = l.toNat := by simp [appendBits]
  have hid := appendBits_bitsMsbFirst l.toNat id.toNat 24
  rw [Nat.mod_eq_of_lt id.isLt] at hid
  rw [cardBits, ← List.singleton_append, appendBits_append, appendBits_append, hl, hid,
    frameValue_toNat]
  simp only [appendBits, List.foldl_cons, List.foldl_nil]
  ring

/-- The registers of a channel after the edges of `FRAME` (R84, R100). -/
def captureBits (cfg : Config) (dt : Nat) : List Bit → Nat → Channel → Channel
  | [], _, k => k
  | b :: bits, t0, k =>
    captureBits cfg dt bits (t0 + dt) (captureBit cfg b (t0 % 2 ^ cfg.tsw) k)

/-- R101 on an open channel, below the saturation of its count. -/
theorem captureBits_of_open {cfg : Config} {k : Channel} (hopen : k.frameOpen = true)
    (hbuf : k.buf < 2 ^ cfg.bufw) {bits : List Bit}
    (hcnt : k.cnt + bits.length ≤ 2 ^ cfg.cntw - 1) (t0 dt : Nat) :
    captureBits cfg dt bits t0 k =
      { k with buf := appendBits k.buf bits % 2 ^ cfg.bufw, cnt := k.cnt + bits.length } := by
  induction bits generalizing k t0 with
  | nil => simp [captureBits, appendBits, Nat.mod_eq_of_lt hbuf]
  | cons b bits ih =>
    rw [List.length_cons] at hcnt
    have hinc : satInc cfg k.cnt = k.cnt + 1 := if_pos (by omega)
    have hshift : appendBits (shiftIn cfg k.buf b) bits % 2 ^ cfg.bufw =
        appendBits k.buf (b :: bits) % 2 ^ cfg.bufw := by
      rw [shiftIn_eq, appendBits_mod]
      rfl
    rw [captureBits, captureBit_of_open hopen, hinc,
      ih (by exact hopen) (by exact shiftIn_lt cfg k.buf b) (by dsimp only; omega)]
    simp only [hshift, List.length_cons, Nat.add_assoc, Nat.add_comm 1]

/-- R101: a frame on an idle channel, not longer than the count goes. -/
theorem captureBits_of_idle {cfg : Config} {k : Channel} (hidle : k.frameOpen = false)
    {bits : List Bit} (hne : bits ≠ []) (hcnt : bits.length ≤ 2 ^ cfg.cntw - 1) (t0 dt : Nat) :
    captureBits cfg dt bits t0 k =
      { k with
        frameOpen := true
        buf := appendBits 0 bits % 2 ^ cfg.bufw
        cnt := bits.length
        ts := t0 % 2 ^ cfg.tsw } := by
  cases bits with
  | nil => exact absurd rfl hne
  | cons b bits =>
    have hfirst : captureBit cfg b (t0 % 2 ^ cfg.tsw) k =
        captureBit cfg b (t0 % 2 ^ cfg.tsw)
          { k with frameOpen := true, buf := 0, cnt := 0, ts := t0 % 2 ^ cfg.tsw } := by
      simp [captureBit, hidle]
    rw [captureBits, hfirst, ← captureBits,
      captureBits_of_open rfl (Nat.two_pow_pos _) (by simpa using hcnt)]
    simp

/-- R73, R118: after the edges of `CARD` an idle channel holds the frame of its fields. -/
theorem captureBits_cardBits {cfg : Config} (hcfg : cfg.Wf) {k : Channel}
    (hidle : k.frameOpen = false) (l : Bit) (id : Payload) (t : Bit) (t0 dt : Nat) :
    captureBits cfg dt (cardBits l id t) t0 k =
      { k with
        frameOpen := true
        buf := (frameValue l id t).toNat
        cnt := credentialWidth
        ts := t0 % 2 ^ cfg.tsw } := by
  have hlen := length_cardBits l id t
  have hbuf : (frameValue l id t).toNat < 2 ^ cfg.bufw :=
    (frameValue l id t).isLt.trans_le (Nat.pow_le_pow_right two_pos hcfg.credential_le_bufw)
  have hne : cardBits l id t ≠ [] := List.cons_ne_nil _ _
  rw [captureBits_of_idle hidle hne (hlen ▸ hcfg.credential_lt_max.le),
    appendBits_cardBits, Nat.mod_eq_of_lt hbuf, hlen]

theorem edgeOf_format (c : Chan) (b : Bit) : (edgeOf c b).format = .opbyte := by
  unfold edgeOf; split_ifs <;> rfl

/-- A line of a trace with an operation of the environment runs it (R83). -/
theorem step_traceLine {cfg : Config} {us ms : Nat} {i : Instr} {s : State} {rest : List Record}
    (hi : i.format = .opbyte) (hin : s.input = traceLine cfg us ms i :: rest) :
    step s = exec i (applyRecord (traceLine cfg us ms i) rest s) :=
  step_environment (a := ⟨i, us, ms⟩) hi hin

/-- R84: the lines of `FRAME` run its edges, and nothing else of the unit changes. -/
theorem run_frameTrace {cfg : Config} {c : Chan} {bits : List Bit} {t0 dt : Nat} {s : State}
    {rest : List Record} (hin : s.input = frameTrace cfg c bits t0 dt ++ rest) :
    ∃ t, run bits.length s = .next t ∧ t.input = rest ∧ t.out = s.out ∧ t.cfg = s.cfg ∧
      t.chan c = captureBits s.cfg dt bits t0 (s.chan c) := by
  induction bits generalizing t0 s with
  | nil => exact ⟨s, rfl, hin, rfl, rfl, rfl⟩
  | cons b bits ih =>
    have hstep := step_traceLine (edgeOf_format c b) hin
    rw [exec_edgeOf] at hstep
    have hnext := capture_input c b (applyRecord (traceLine cfg t0 (t0 / 1000) (edgeOf c b))
      (frameTrace cfg c bits (t0 + dt) dt ++ rest) s)
    obtain ⟨t, hrun, hinput, hout, hcfg, hchan⟩ := ih hnext
    refine ⟨t, andThen_eq_next.mpr ⟨_, hstep, hrun⟩, hinput, ?_, ?_, ?_⟩
    · simpa using hout
    · simpa using hcfg
    · simpa [captureBits, traceLine] using hchan

/-- The steps of a run, cut in two. -/
theorem run_add (m n : Nat) (s : State) : run (m + n) s = andThen (run m s) (run n) := by
  induction m generalizing s with
  | zero => rw [Nat.zero_add]; rfl
  | succ m ih =>
    rw [Nat.succ_add]
    simp only [run]
    cases step s with
    | next u => exact ih u
    | fault f => rfl
    | refused r => rfl

/-- R130: under format 1 a closing poll reports the id of the frame in its channel, whatever the
parity bits. -/
theorem pollChannel_of_frameValue {c : Chan} {s : State} (hcfg : s.cfg.Wf) (hfmt : s.cfg.fmt = 1)
    (hopen : (s.chan c).frameOpen = true) (hquiet : quietOver s.cfg s.nowUs (s.chan c) = true)
    (hcnt : (s.chan c).cnt = credentialWidth) {l : Bit} {id : Payload} {t : Bit}
    (hbuf : (s.chan c).buf = (frameValue l id t).toNat) :
    pollChannel c s = .next ((closeFrame c s).emit (.cred id.toNat c)) := by
  rw [pollChannel_of_credential hopen hquiet hcnt, hbuf, credentialValue_toNat, credentialFrame,
    closeFrame_cfg, decValue_frameValue hcfg, if_neg (by rw [hfmt]; decide)]

/-- R112, R117: a frame's quiet period is over when more true time than it has passed since the
first bit, however often the clock has wrapped. -/
theorem quietOver_of_true_time {cfg : Config} {k : Channel} {t0 t : Nat}
    (hts : k.ts = t0 % 2 ^ cfg.tsw) (hle : t0 ≤ t) (hlt : t - t0 < 2 ^ cfg.tsw) :
    quietOver cfg (t % 2 ^ cfg.tsw) k = true ↔ cfg.quietPeriodUs < t - t0 := by
  rw [quietOver_iff, hts, elapsed_of_true_time cfg hle hlt]

@[simp] theorem load_chan (s : State) (trace : List Record) (c : Chan) :
    (s.load trace).chan c = s.chan c := by
  cases c <;> rfl

/-- R84, R118: the lines of `CARD` leave the card's frame in an idle channel. -/
theorem run_cardTrace {c : Chan} {l : Bit} {id : Payload} {t : Bit} {t0 dt : Nat} {s : State}
    {rest : List Record} (hcfg : s.cfg.Wf) (hidle : (s.chan c).frameOpen = false) :
    ∃ u, run credentialWidth (s.load (cardTrace s.cfg c l id t t0 dt ++ rest)) = .next u ∧
      u.input = rest ∧ u.out = s.out ∧ u.cfg = s.cfg ∧
      u.chan c = { s.chan c with
        frameOpen := true
        buf := (frameValue l id t).toNat
        cnt := credentialWidth
        ts := t0 % 2 ^ s.cfg.tsw } := by
  obtain ⟨u, hrun, hinput, hout, hucfg, hchan⟩ := run_frameTrace (bits := cardBits l id t)
    (s := s.load (cardTrace s.cfg c l id t t0 dt ++ rest)) rfl
  rw [length_cardBits] at hrun
  rw [load_chan] at hchan
  exact ⟨u, hrun, hinput, hout, hucfg, hchan.trans (captureBits_cardBits hcfg hidle l id t t0 dt)⟩

/-- Settles O53: the card's edges leave its frame in the channel, and the poll, later than the quiet
period in true time, reports the id in it. -/
theorem presentedCardIsReported : Obligations.PresentedCardIsReported := by
  intro c l id p t0 dt t ms s hcfg hfmt hidle _ hquiet hwrap
  obtain ⟨u, hrun, hinput, hout, hucfg, hchan⟩ := run_cardTrace (l := l) (id := id) (t := p)
    (t0 := t0) (dt := dt) (rest := [traceLine s.cfg t ms (.poll c)]) hcfg hidle
  have hpast : quietOver u.cfg (t % 2 ^ u.cfg.tsw) (u.chan c) = true := by
    rw [hucfg]
    exact (quietOver_of_true_time (by rw [hchan]) (by omega) hwrap).mpr hquiet
  have hpoll : step u = .next ((closeFrame c
      (applyRecord (traceLine s.cfg t ms (.poll c)) [] u)).emit (.cred id.toNat c)) :=
    (step_traceLine rfl hinput).trans (pollChannel_of_frameValue (l := l) (t := p)
      (by simpa [hucfg] using hcfg) (by simpa [hucfg] using hfmt) (by simp [hchan])
      (by simpa [traceLine] using hpast) (by simp [hchan]) (by simp [hchan]))
  refine ⟨_, (run_add credentialWidth 1 _).trans (andThen_eq_next.mpr ⟨u, hrun,
    andThen_eq_next.mpr ⟨_, hpoll, rfl⟩⟩), ?_, ?_, ?_, ?_⟩
  · simp [hout]
  · simp
  · simp [Channel.passcode, hchan]
  · simp

end Sys2Proof.Machine
end

section
/-! SUPPORT. The statements of 40_bitcapture.md: what one edge writes and leaves (R100, R102, R103,
R105), what a sequence of edges leaves in an idle channel (R101, R104), and edges of two channels
interleaved (R107). -/

namespace Sys2Proof.Machine

/-! ### One edge (R100, R102, R103, R105) -/

/-- R100 on any channel: an idle one counts and shifts from 0 and takes the time. -/
theorem captureBit_eq (cfg : Config) (b : Bit) (us : Nat) (k : Channel) :
    captureBit cfg b us k = { k with
      frameOpen := true
      buf := (2 * (if k.frameOpen then k.buf else 0) + b.toNat) % 2 ^ cfg.bufw
      cnt := satInc cfg (if k.frameOpen then k.cnt else 0)
      ts := if k.frameOpen then k.ts else us } := by
  cases hopen : k.frameOpen with
  | true => simp [captureBit_of_open hopen, shiftIn_eq, ← hopen]
  | false => simp [captureBit_of_idle hopen, shiftIn_eq]

/-- Settles O7: both edges are CAPTURE, of the bit 0 and of the bit 1. -/
theorem edgeAppendsOneBit : Obligations.EdgeAppendsOneBit := by
  intro cfg c s k old n after
  have hedge (b : Bit) : exec (edgeOf c b) s = .next (after b.toNat) := by
    rw [exec_edgeOf, capture, captureBit_eq]
    rfl
  exact ⟨hedge 0, hedge 1, by cases c <;> rfl, by cases c <;> rfl⟩

@[simp] theorem capture_nowUs (c : Chan) (b : Bit) (s : State) :
    (capture c b s).nowUs = s.nowUs := by simp [capture]
@[simp] theorem capture_nowMs (c : Chan) (b : Bit) (s : State) :
    (capture c b s).nowMs = s.nowMs := by simp [capture]
@[simp] theorem capture_ret (c : Chan) (b : Bit) (s : State) :
    (capture c b s).ret = s.ret := by simp [capture]

/-- R105: an edge stores no digit, on either channel. -/
theorem capture_dig (c d : Chan) (b : Bit) (s : State) :
    ((capture c b s).chan d).dig = (s.chan d).dig := by
  by_cases hd : d = c
  · subst hd; simp
  · simp [hd]

/-- Settles O8, register by register. -/
theorem edgeWritesFourRegistersOnly : Obligations.EdgeWritesFourRegistersOnly := by
  intro c i s t hi ht
  obtain ⟨b, rfl⟩ : ∃ b, i = edgeOf c b := hi.elim (⟨0, ·⟩) (⟨1, ·⟩)
  obtain rfl := next_inj ((exec_edgeOf c b s).symm.trans ht)
  have hts (hopen : (s.chan c).frameOpen = true) : ((capture c b s).chan c).ts = (s.chan c).ts := by
    simp [captureBit_of_open hopen]
  exact ⟨fun d hd => capture_chan_of_ne hd b s, fun d a => by rw [capture_dig], capture_dig c c b s,
    by simp, by simp, by simp, hts, capture_out c b s, capture_cfg c b s, capture_nowUs c b s,
    capture_nowMs c b s, capture_input c b s, capture_ret c b s⟩

/-! ### The edges of one channel (R101, R104) -/

/-- The registers of a channel after edges, each a bit with its two clock samples (R85, R100). -/
def captureEdges (cfg : Config) (edges : List (Bit × Nat × Nat)) (k : Channel) : Channel :=
  edges.foldl (fun k e => captureBit cfg e.1 (e.2.1 % 2 ^ cfg.tsw) k) k

theorem captureEdges_cons (cfg : Config) (e : Bit × Nat × Nat) (edges : List (Bit × Nat × Nat))
    (k : Channel) : captureEdges cfg (e :: edges) k =
      captureEdges cfg edges (captureBit cfg e.1 (e.2.1 % 2 ^ cfg.tsw) k) := rfl

/-- R101 on an open channel: the bits follow those it holds, the count stops at its largest. -/
theorem captureEdges_of_open {cfg : Config} {k : Channel} (hopen : k.frameOpen = true)
    (hbuf : k.buf < 2 ^ cfg.bufw) (hcnt : k.cnt < 2 ^ cfg.cntw) (edges : List (Bit × Nat × Nat)) :
    captureEdges cfg edges k =
      { k with
        buf := appendBits k.buf (edges.map Prod.fst) % 2 ^ cfg.bufw
        cnt := min (k.cnt + edges.length) (2 ^ cfg.cntw - 1) } := by
  induction edges generalizing k with
  | nil =>
    have hmin : min k.cnt (2 ^ cfg.cntw - 1) = k.cnt := by omega
    simp [captureEdges, appendBits, Nat.mod_eq_of_lt hbuf, hmin]
  | cons e edges ih =>
    have hshift : appendBits (shiftIn cfg k.buf e.1) (edges.map Prod.fst) % 2 ^ cfg.bufw =
        appendBits k.buf ((e :: edges).map Prod.fst) % 2 ^ cfg.bufw := by
      rw [shiftIn_eq, appendBits_mod]
      rfl
    have hcount : min (satInc cfg k.cnt + edges.length) (2 ^ cfg.cntw - 1) =
        min (k.cnt + (e :: edges).length) (2 ^ cfg.cntw - 1) := by
      rw [satInc_eq_min hcnt, List.length_cons]
      omega
    rw [captureEdges_cons, captureBit_of_open hopen,
      ih (by exact hopen) (by exact shiftIn_lt cfg k.buf e.1) (by exact satInc_lt cfg hcnt)]
    simp only [hshift, hcount]

/-- R101 on an idle channel, which the first edge opens. -/
theorem captureEdges_of_idle {cfg : Config} {k : Channel} (hidle : k.frameOpen = false)
    (e : Bit × Nat × Nat) (edges : List (Bit × Nat × Nat)) :
    captureEdges cfg (e :: edges) k =
      { k with
        frameOpen := true
        buf := appendBits 0 ((e :: edges).map Prod.fst) % 2 ^ cfg.bufw
        cnt := min (e :: edges).length (2 ^ cfg.cntw - 1)
        ts := e.2.1 % 2 ^ cfg.tsw } := by
  have hfirst : captureEdges cfg (e :: edges) k = captureEdges cfg (e :: edges)
      { k with frameOpen := true, buf := 0, cnt := 0, ts := e.2.1 % 2 ^ cfg.tsw } := by
    simp [captureEdges_cons, captureBit, hidle]
  rw [hfirst, captureEdges_of_open rfl (Nat.two_pow_pos _) (Nat.two_pow_pos _), Nat.zero_add]

theorem appendBits_zero_cons (b : Bit) (bits : List Bit) :
    appendBits 0 (b :: bits) = 2 ^ bits.length * b.toNat + appendBits 0 bits := by
  have hcons : appendBits 0 (b :: bits) = appendBits b.toNat bits := by simp [appendBits]
  rw [hcons, appendBits_eq, Nat.mul_comm]

theorem appendBits_zero_lt (bits : List Bit) : appendBits 0 bits < 2 ^ bits.length := by
  induction bits with
  | nil => simp [appendBits]
  | cons b bits ih =>
    have hb : b.toNat ≤ 1 := Nat.le_of_lt_succ b.isLt
    have hle := Nat.mul_le_mul_left (2 ^ bits.length) hb
    rw [appendBits_zero_cons, List.length_cons, Nat.pow_succ]
    omega

/-- R101: the bits with their weights, the first one the most significant. -/
theorem appendBits_eq_sum {α : Type} (edges : List (Bit × α)) :
    appendBits 0 (edges.map Prod.fst) =
      ∑ k : Fin edges.length, edges[k].1.toNat * 2 ^ (edges.length - 1 - k.val) := by
  induction edges with
  | nil => rfl
  | cons e edges ih =>
    rw [List.map_cons, appendBits_zero_cons, ih, List.length_map]
    refine Eq.trans ?_ (Fin.sum_univ_succ (n := edges.length) _).symm
    simp [Nat.mul_comm, Nat.sub_sub, Nat.add_comm 1]

/-- R22, R101: bit `n - 1 - k` of the value is the bit of edge `k`. -/
theorem testBit_appendBits {α : Type} (edges : List (Bit × α)) (k : Nat) (hk : k < edges.length) :
    (appendBits 0 (edges.map Prod.fst)).testBit (edges.length - 1 - k) = (edges[k].1 == 1) := by
  have hbit : ∀ b : Bit, b.toNat.testBit 0 = (b == 1) := by decide
  induction edges generalizing k with
  | nil => exact absurd hk (Nat.not_lt_zero k)
  | cons e edges ih =>
    rw [List.map_cons, appendBits_zero_cons,
      Nat.testBit_two_pow_mul_add _ (appendBits_zero_lt (edges.map Prod.fst)), List.length_map]
    cases k with
    | zero => simpa using hbit e.1
    | succ k =>
      have hk' : k < edges.length := Nat.lt_of_succ_lt_succ hk
      have hi : (e :: edges).length - 1 - (k + 1) = edges.length - 1 - k := by
        rw [List.length_cons]; omega
      rw [hi, if_pos (by omega), ih k hk', List.getElem_cons_succ]

/-! ### A run of edges (R81, R85) -/

/-- R85: an edge's record is the line of its operation. -/
theorem traceRecord_opByte (cfg : Config) (c : Chan) (b : Bit) (us ms : Nat) :
    traceRecord (opByte 0b0001 c b) us ms = traceLine cfg us ms (edgeOf c b) := by
  obtain rfl | rfl : b = 0 ∨ b = 1 := by revert b; decide
  · cases c <;> rfl
  · cases c <;> rfl

/-- The record of an edge, first in the input, captures its bit. -/
theorem step_edgeRecord {c : Chan} {b : Bit} {us ms : Nat} {s : State} {rest : List Record}
    (hin : s.input = traceRecord (opByte 0b0001 c b) us ms :: rest) :
    step s = .next (capture c b (applyRecord (traceRecord (opByte 0b0001 c b) us ms) rest s)) := by
  rw [traceRecord_opByte s.cfg] at hin ⊢
  rw [step_traceLine (edgeOf_format c b) hin, exec_edgeOf]

/-- The edges of channel `c` in a sequence of edges on both channels. -/
def edgesOn (c : Chan) (edges : List (Chan × Bit × Nat × Nat)) : List (Bit × Nat × Nat) :=
  (edges.filter fun e => e.1 == c).map Prod.snd

theorem edgesOn_map_mk (c : Chan) (edges : List (Bit × Nat × Nat)) :
    edgesOn c (edges.map (c, ·)) = edges := by
  simp [edgesOn, List.filter_map, Function.comp_def]

/-- R105, R107: edges on both channels complete, and each channel takes its own. -/
theorem run_edges {edges : List (Chan × Bit × Nat × Nat)} {s : State} {rest : List Record}
    (hin : s.input =
      edges.map (fun e => traceRecord (opByte 0b0001 e.1 e.2.1) e.2.2.1 e.2.2.2) ++ rest) :
    ∃ t, run edges.length s = .next t ∧ t.input = rest ∧ t.out = s.out ∧
      ∀ c, t.chan c = captureEdges s.cfg (edgesOn c edges) (s.chan c) := by
  induction edges generalizing s with
  | nil => exact ⟨s, rfl, hin, rfl, fun _ => rfl⟩
  | cons e edges ih =>
    obtain ⟨d, b, us, ms⟩ := e
    obtain ⟨t, hrun, hinput, hout, hchan⟩ := ih (capture_input d b (applyRecord
      (traceRecord (opByte 0b0001 d b) us ms) _ s))
    refine ⟨t, andThen_eq_next.mpr ⟨_, step_edgeRecord hin, hrun⟩, hinput, by simpa using hout,
      fun c => (hchan c).trans ?_⟩
    by_cases hc : c = d
    · subst hc
      simp [edgesOn, captureEdges_cons, traceRecord]
    · simp [edgesOn, hc, Ne.symm hc]

/-- Settles O9: the edges reach the channel in order, and what they leave there is their number. -/
theorem edgesShiftInMostSignificantFirst : Obligations.EdgesShiftInMostSignificantFirst := by
  intro c edges s rest hn hidle hin
  obtain ⟨t, hrun, hinput, hout, hchan⟩ := run_edges (edges := edges.map (c, ·)) (s := s)
    (rest := rest) (by simpa [Function.comp_def] using hin)
  obtain ⟨e, es, rfl⟩ := List.exists_cons_of_length_pos hn
  replace hchan := hchan c
  rw [edgesOn_map_mk, captureEdges_of_idle hidle] at hchan
  rw [List.length_map] at hrun
  refine ⟨t, hrun, hinput, hout, by rw [hchan], by rw [hchan], by rw [hchan]; rfl, ?_,
    fun hle k => ?_⟩
  · rw [hchan, ← appendBits_eq_sum]
  · have hlt : (e :: es).length - 1 - k.val < s.cfg.bufw := by omega
    rw [hchan, Nat.testBit_mod_two_pow, testBit_appendBits _ k k.isLt, decide_eq_true hlt,
      Bool.true_and]
    rfl

/-- Settles O10: in both runs the channel takes the same edges. -/
theorem interleavedEdgesStayOnTheirChannel : Obligations.InterleavedEdgesStayOnTheirChannel := by
  intro c edges s records own
  have hown : edgesOn c own = edgesOn c edges := by simp [edgesOn, own]
  obtain ⟨t, ht, -, -, htc⟩ := run_edges (edges := edges) (s := s.load (records edges))
    (List.append_nil _).symm
  obtain ⟨u, hu, -, -, huc⟩ := run_edges (edges := own) (s := s.load (records own))
    (List.append_nil _).symm
  refine ⟨t, u, ht, hu, ?_⟩
  rw [htc, huc, hown, load_chan, load_chan]
  rfl

end Sys2Proof.Machine
end

section
/-! SUPPORT. The statements of 41_frame_reassembler.md: a poll before the deadline (R112, R115), the
whole of one poll (R110) and of POLLALL (R116), what both leave unchanged (R114), the deadline in
true time (R111, R117), and what alone closes a frame (R120). -/

namespace Sys2Proof.Machine

/-! ### The deadline (R110, R112, R115) -/

/-- R110, R112: the channel holds a frame whose quiet period is over, so that a poll closes it. -/
def FrameFinal (cfg : Config) (us : Nat) (k : Channel) : Prop :=
  k.frameOpen = true ∧ cfg.quietPeriodUs < elapsed cfg us k.ts

theorem frameFinal_iff (cfg : Config) (us : Nat) (k : Channel) :
    (k.frameOpen && quietOver cfg us k) = true ↔ FrameFinal cfg us k := by
  rw [Bool.and_eq_true, quietOver_iff, FrameFinal]

theorem not_frameFinal_iff (cfg : Config) (us : Nat) (k : Channel) :
    ¬ FrameFinal cfg us k ↔ k.frameOpen = false ∨ elapsed cfg us k.ts ≤ cfg.quietPeriodUs := by
  rw [FrameFinal, not_and_or, Bool.not_eq_true, Nat.not_lt]

theorem FrameFinal.frameOpen {cfg : Config} {us : Nat} {k : Channel} (h : FrameFinal cfg us k) :
    k.frameOpen = true := h.1

theorem FrameFinal.quietOver {cfg : Config} {us : Nat} {k : Channel} (h : FrameFinal cfg us k) :
    quietOver cfg us k = true := (quietOver_iff cfg us k).mpr h.2

/-- R115: a poll that finds no final frame does nothing. -/
theorem pollChannel_of_not_final {c : Chan} {s : State}
    (h : ¬ FrameFinal s.cfg s.nowUs (s.chan c)) : pollChannel c s = .next s :=
  if_neg (mt (frameFinal_iff _ _ _).mp h)

theorem pollEffect_of_not_final {cfg : Config} {us : Nat} {k : Channel}
    (h : ¬ FrameFinal cfg us k) (ms : Nat) (c : Chan) : pollEffect cfg us ms c k = ⟨k, []⟩ :=
  if_neg (mt (frameFinal_iff _ _ _).mp h)

/-- R85: a poll's record is the line of its operation. -/
theorem traceRecord_poll (cfg : Config) (c : Chan) (us ms : Nat) :
    traceRecord (opByte 0b0010 c 0) us ms = traceLine cfg us ms (.poll c) := by
  cases c <;> rfl

/-- The record of a poll, first in the input, polls at the record's samples. -/
theorem step_pollRecord {c : Chan} {us ms : Nat} {s : State} {rest : List Record}
    (hin : s.input = traceRecord (opByte 0b0010 c 0) us ms :: rest) :
    step s = pollChannel c (applyRecord (traceRecord (opByte 0b0010 c 0) us ms) rest s) := by
  rw [traceRecord_poll s.cfg] at hin ⊢
  exact step_traceLine rfl hin

/-- R115: polls that find no final frame complete and change neither a channel nor the log. -/
theorem run_polls_of_not_final {c : Chan} {samples : List (Nat × Nat)} {s : State}
    {rest : List Record}
    (hin : s.input = samples.map (fun p => traceRecord (opByte 0b0010 c 0) p.1 p.2) ++ rest)
    (hwait : ∀ p ∈ samples, ¬ FrameFinal s.cfg (p.1 % 2 ^ s.cfg.tsw) (s.chan c)) :
    ∃ t, run samples.length s = .next t ∧ t.ch1 = s.ch1 ∧ t.ch2 = s.ch2 ∧ t.out = s.out ∧
      t.cfg = s.cfg ∧ t.input = rest := by
  induction samples generalizing s with
  | nil => exact ⟨s, rfl, rfl, rfl, rfl, rfl, hin⟩
  | cons p samples ih =>
    obtain ⟨hp, hwait⟩ := List.forall_mem_cons.mp hwait
    have hstep := (step_pollRecord hin).trans
      (pollChannel_of_not_final (by simpa [traceRecord] using hp))
    obtain ⟨t, hrun, ht⟩ := ih (applyRecord_input _ _ _) (by simpa using hwait)
    exact ⟨t, andThen_eq_next.mpr ⟨_, hstep, hrun⟩, ht⟩

/-- Settles O11, by induction on the polls. -/
theorem pollBeforeDeadlineDoesNothing : Obligations.PollBeforeDeadlineDoesNothing := by
  intro c s
  refine ⟨fun h => pollChannel_of_not_final ((not_frameFinal_iff _ _ _).mpr h),
    fun samples rest hin hwait => run_polls_of_not_final hin fun p hp => ?_⟩
  exact (not_frameFinal_iff _ _ _).mpr (hwait p hp)

/-! ### The whole of one poll (R110) -/

/-- Settles O12: the three branches of a poll; its events are bounded by `pollChannel_appends`. -/
theorem pollClosesAndClassifies : Obligations.PollClosesAndClassifies := by
  intro c s hcfg k closed id
  have hfinal (hopen : ¬ k.frameOpen = false)
      (hover : ¬ elapsed s.cfg s.nowUs k.ts ≤ s.cfg.quietPeriodUs) : FrameFinal s.cfg s.nowUs k :=
    ⟨Bool.eq_true_of_not_eq_false hopen, Nat.not_le.mp hover⟩
  refine ⟨?_, fun t ht => ?_, by cases c <;> rfl⟩
  · split_ifs with hidle hyoung hcnt
    · exact pollChannel_of_not_final ((not_frameFinal_iff _ _ _).mpr (.inl hidle))
    · exact pollChannel_of_not_final ((not_frameFinal_iff _ _ _).mpr (.inr hyoung))
    · have hid : decValue s.cfg (credentialValue k.buf) = id := decValue_credentialValue hcfg k.buf
      have h := hfinal hidle hyoung
      rw [← hid]
      exact (pollChannel_of_credential h.frameOpen h.quietOver hcnt).trans
        (congrArg Host.Outcome.next (credentialFrame_closeFrame c _ s))
    · have h := hfinal hidle hyoung
      rw [← closeFrame_cfg s c]
      exact pollChannel_of_button h.frameOpen h.quietOver hcnt
  · obtain ⟨events, hout, hlen⟩ := pollChannel_appends ht
    match events, hlen with
    | [], _ => exact .inl (by rw [hout, List.append_nil])
    | [e], _ => exact .inr ⟨e, hout⟩

/-! ### The deadline in true time (R111, R112, R117) -/

/-- Settles O13: in true time, too, the channel stays open exactly until a poll finds its frame
final. -/
theorem quietPeriodInTrueTime : Obligations.QuietPeriodInTrueTime := by
  intro c s t0 t hs hopen hts hnow hle hlt
  have hquiet : quietOver s.cfg s.nowUs (s.chan c) = true ↔ s.cfg.quietPeriodUs < t - t0 := by
    rw [hnow]
    exact quietOver_of_true_time hts hle hlt
  by_cases h : t - t0 ≤ s.cfg.quietPeriodUs
  · have hwait : ¬ FrameFinal s.cfg s.nowUs (s.chan c) := fun hfinal =>
      Nat.not_lt.mpr h (hquiet.mp hfinal.quietOver)
    exact ⟨s, pollChannel_of_not_final hwait, iff_of_true hopen h, fun _ => rfl⟩
  · have hclosed := pollEffect_closes hopen (hquiet.mpr (Nat.not_le.mp h)) s.nowMs c
    refine ⟨_, pollChannel_eq_perform hs.cfg (hs.chan c).len_le, ?_, fun hle => absurd hle h⟩
    rw [perform_chan, hclosed]
    exact iff_of_false Bool.false_ne_true h

/-! ### POLLALL (R116) -/

/-- Settles O15: each poll is an effect on its own channel. -/
theorem pollallIsPollOneThenPollTwo : Obligations.PollallIsPollOneThenPollTwo := by
  intro s hs
  have h1 := (poll_isLocal .ch1).exec_eq s hs.cfg hs.ch1.len_le
  have h2 (e : Effect) := (poll_isLocal .ch2).exec_eq (s.perform .ch1 e) hs.cfg hs.ch2.len_le
  obtain ⟨hlen1, hch1⟩ := pollEffect_logsOnly s.cfg s.nowUs s.nowMs .ch1 s.ch1
  obtain ⟨hlen2, hch2⟩ := pollEffect_logsOnly s.cfg s.nowUs s.nowMs .ch2 s.ch2
  exact ⟨_, _, h1, h2 _, andThen_eq_next.mpr ⟨_, h1, h2 _⟩, rfl, rfl,
    ⟨_, _, rfl, rfl, hlen1, hlen2, hch1, hch2⟩, rfl⟩

/-! ### What a button and a poll leave, whatever the state

`pollChannel_eq_perform` says that a poll completes where the session lies in the store. The frames
are about every state from which it completes. -/

theorem buttonAction_next_eq {c : Chan} {code : Nat} {s t : State}
    (h : buttonAction c code s = .next t) :
    t = s.perform c (buttonEffect s.cfg c code (s.chan c)) := by
  unfold buttonAction at h
  unfold buttonEffect
  split_ifs at h ⊢
  · rw [perform_nil, ← next_inj h, escape]
  · obtain h' | ⟨j, h'⟩ := enter_cases c s <;> rw [h'] at h
    · rw [perform_singleton, ← next_inj h]
    · cases h
  · obtain h' | ⟨j, h'⟩ := appendDigit_cases c code s <;> rw [h'] at h
    · rw [perform_nil, ← next_inj h]
    · cases h

theorem keyButton_next_eq {c : Chan} {code : Nat} {s t : State}
    (h : keyButton c code s = .next t) :
    t = s.perform c (keyEffect s.cfg s.nowMs c code (s.chan c)) := by
  obtain ⟨u, hu, rfl⟩ := thenDo_eq_next.mp h
  rw [buttonAction_next_eq hu, stampLast_perform, dropStale_eq_setChan]
  simp [keyEffect]

theorem pollChannel_next_eq {c : Chan} {s t : State} (h : pollChannel c s = .next t) :
    t = s.perform c (pollEffect s.cfg s.nowUs s.nowMs c (s.chan c)) := by
  by_cases hfinal : FrameFinal s.cfg s.nowUs (s.chan c)
  · by_cases hcnt : (s.chan c).cnt = credentialWidth
    · rw [pollChannel_of_credential hfinal.frameOpen hfinal.quietOver hcnt] at h
      rw [pollEffect_of_credential hfinal.frameOpen hfinal.quietOver hcnt, perform_singleton,
        ← emit_setChan, ← next_inj h, credentialFrame, closeFrame_cfg, closeFrame_eq_setChan]
    · rw [pollChannel_of_button hfinal.frameOpen hfinal.quietOver hcnt] at h
      rw [pollEffect_of_button hfinal.frameOpen hfinal.quietOver hcnt, keyButton_next_eq h,
        closeFrame_eq_setChan]
      simp
  · rw [pollChannel_of_not_final hfinal] at h
    rw [pollEffect_of_not_final hfinal, perform_nil, setChan_chan_self, next_inj h]

section
variable (s : State) (c : Chan) (e : Effect)

@[simp] theorem perform_input : (s.perform c e).input = s.input := setChan_input s c e.chan
@[simp] theorem perform_ret : (s.perform c e).ret = s.ret := setChan_ret s c e.chan

/-- An effect that logs for its own channel extends the events of that channel. -/
theorem eventsOf_perform (h : e.LogsOnly c) :
    eventsOf c (s.perform c e).out = eventsOf c s.out ++ e.events := by
  have hown : eventsOf c e.events = e.events :=
    List.filter_eq_self.mpr fun ev hev => beq_iff_eq.mpr (h.2 ev hev)
  rw [perform_out, eventsOf, List.filter_append, ← eventsOf, ← eventsOf, hown]

/-- It adds none to another channel's. -/
theorem eventsOf_perform_of_ne (h : e.LogsOnly c) {d : Chan} (hd : d ≠ c) :
    eventsOf d (s.perform c e).out = eventsOf d s.out := by
  have hother : eventsOf d e.events = [] :=
    List.filter_eq_nil_iff.mpr fun ev hev heq => hd ((beq_iff_eq.mp heq).symm.trans (h.2 ev hev))
  rw [perform_out, eventsOf, List.filter_append, ← eventsOf, ← eventsOf, hother, List.append_nil]

end

/-! ### What a button leaves unchanged (R138, R142, R144, R146) -/

section
variable (cfg : Config) (ms : Nat) (k : Channel)

@[simp] theorem Channel.dropStale_ts : (k.dropStale cfg ms).ts = k.ts := by
  unfold Channel.dropStale; split_ifs <;> rfl
@[simp] theorem Channel.dropStale_dig : (k.dropStale cfg ms).dig = k.dig := by
  unfold Channel.dropStale; split_ifs <;> rfl
@[simp] theorem Channel.dropStale_aux : (k.dropStale cfg ms).aux = k.aux := by
  unfold Channel.dropStale; split_ifs <;> rfl

/-- R114: closing the frame does not touch what staleness looks at. -/
theorem Channel.dropStale_close_len :
    (k.close.dropStale cfg ms).len = (k.dropStale cfg ms).len := by
  have hstale : stale cfg ms k.close = stale cfg ms k := rfl
  unfold Channel.dropStale
  rw [hstale]
  split_ifs <;> rfl

variable {cfg} (c : Chan) (code : Nat)

@[simp] theorem keyEffect_ts : (keyEffect cfg ms c code k).chan.ts = k.ts := by
  unfold keyEffect buttonEffect
  split_ifs <;> exact Channel.dropStale_ts cfg ms k

/-- R142, R144: the control buttons store no digit. -/
theorem keyEffect_dig_of_control (h : code = cfg.keyEsc ∨ code = cfg.keyEnt) :
    (keyEffect cfg ms c code k).chan.dig = k.dig := by
  unfold keyEffect buttonEffect
  split_ifs with hesc hent
  · exact Channel.dropStale_dig cfg ms k
  · exact Channel.dropStale_dig cfg ms k
  · exact absurd h (not_or.mpr ⟨hesc, hent⟩)

/-- R142, R146: a button other than ENTER logs nothing and leaves the auxiliary line. -/
theorem keyEffect_of_not_enter (h : code = cfg.keyEsc ∨ code ≠ cfg.keyEnt) :
    (keyEffect cfg ms c code k).chan.aux = k.aux ∧ (keyEffect cfg ms c code k).events = [] := by
  unfold keyEffect buttonEffect
  split_ifs with hesc hent
  · exact ⟨Channel.dropStale_aux cfg ms k, rfl⟩
  · exact absurd hent (h.resolve_left hesc)
  · exact ⟨Channel.dropStale_aux cfg ms k, rfl⟩

/-- R146: no cell changes but the one that a digit goes to. -/
theorem keyEffect_read (hwf : Memory.wf k.dig = true) {a : Nat}
    (ha : a ≠ writeIndex cfg (k.dropStale cfg ms).len) :
    Memory.read (keyEffect cfg ms c code k).chan.dig a = Memory.read k.dig a := by
  by_cases h : code = cfg.keyEsc ∨ code = cfg.keyEnt
  · rw [keyEffect_dig_of_control ms k c code h]
  · obtain ⟨hesc, hent⟩ := not_or.mp h
    simp only [keyEffect, buttonEffect, if_neg hesc, if_neg hent, appendChannel,
      Channel.dropStale_dig]
    rw [Memory.read_write hwf, if_neg ha]

end

/-! ### What a poll leaves unchanged (R114, R139) -/

section
variable (cfg : Config) (us ms : Nat) (c : Chan) (k : Channel)

/-- A poll's effect in its three cases: no final frame, a credential, a button. -/
theorem pollEffect_cases :
    (¬ FrameFinal cfg us k ∧ pollEffect cfg us ms c k = ⟨k, []⟩) ∨
    (FrameFinal cfg us k ∧ k.cnt = credentialWidth ∧ pollEffect cfg us ms c k =
      ⟨k.close, [.cred (decValue cfg (credentialValue k.buf)) c]⟩) ∨
    (FrameFinal cfg us k ∧ k.cnt ≠ credentialWidth ∧ pollEffect cfg us ms c k =
      keyEffect cfg ms c (buttonCode cfg k.buf) k.close) := by
  by_cases hfinal : FrameFinal cfg us k
  · by_cases hcnt : k.cnt = credentialWidth
    · exact .inr (.inl ⟨hfinal, hcnt,
        pollEffect_of_credential hfinal.frameOpen hfinal.quietOver hcnt⟩)
    · exact .inr (.inr ⟨hfinal, hcnt,
        pollEffect_of_button hfinal.frameOpen hfinal.quietOver hcnt⟩)
  · exact .inl ⟨hfinal, pollEffect_of_not_final hfinal ms c⟩

/-- R114: the reset at frame close does not write the timestamp. -/
theorem pollEffect_ts : (pollEffect cfg us ms c k).chan.ts = k.ts := by
  obtain ⟨-, h⟩ | ⟨-, -, h⟩ | ⟨-, -, h⟩ := pollEffect_cases cfg us ms c k <;> rw [h]
  · rfl
  · exact keyEffect_ts ms k.close c _

/-- R146: no cell changes but the one that a closed digit goes to. -/
theorem pollEffect_read (hwf : Memory.wf k.dig = true) {a : Nat}
    (ha : a ≠ writeIndex cfg (k.dropStale cfg ms).len) :
    Memory.read (pollEffect cfg us ms c k).chan.dig a = Memory.read k.dig a := by
  obtain ⟨-, h⟩ | ⟨-, -, h⟩ | ⟨-, -, h⟩ := pollEffect_cases cfg us ms c k <;> rw [h]
  · rfl
  · exact keyEffect_read ms k.close c _ hwf (by rwa [Channel.dropStale_close_len])

variable {cfg us k} (hfinal : FrameFinal cfg us k)
include hfinal

/-- R114: a closing poll resets the frame's three registers. -/
theorem pollEffect_frame_of_final : (pollEffect cfg us ms c k).chan.buf = 0 ∧
    (pollEffect cfg us ms c k).chan.cnt = 0 ∧
    (pollEffect cfg us ms c k).chan.frameOpen = false := by
  obtain ⟨hwait, -⟩ | ⟨-, -, h⟩ | ⟨-, -, h⟩ := pollEffect_cases cfg us ms c k
  · exact absurd hfinal hwait
  · rw [h]; exact ⟨rfl, rfl, rfl⟩
  · rw [h]; exact keyEffect_frame cfg ms c _ k.close

/-- R139: a credential does not touch the session. -/
theorem pollEffect_session_of_credential (hcnt : k.cnt = credentialWidth) :
    (pollEffect cfg us ms c k).chan.dig = k.dig ∧ (pollEffect cfg us ms c k).chan.len = k.len ∧
    (pollEffect cfg us ms c k).chan.last = k.last ∧
    (pollEffect cfg us ms c k).chan.aux = k.aux := by
  rw [pollEffect_of_credential hfinal.frameOpen hfinal.quietOver hcnt]
  exact ⟨rfl, rfl, rfl, rfl⟩

variable (hcnt : k.cnt ≠ credentialWidth)
include hcnt

/-- R142, R144: a closed control button stores no digit. -/
theorem pollEffect_dig_of_control
    (h : buttonCode cfg k.buf = cfg.keyEsc ∨ buttonCode cfg k.buf = cfg.keyEnt) :
    (pollEffect cfg us ms c k).chan.dig = k.dig := by
  rw [pollEffect_of_button hfinal.frameOpen hfinal.quietOver hcnt]
  exact keyEffect_dig_of_control ms k.close c _ h

/-- R142, R146: a closed button other than ENTER logs nothing and leaves the auxiliary line. -/
theorem pollEffect_of_not_enter
    (h : buttonCode cfg k.buf = cfg.keyEsc ∨ buttonCode cfg k.buf ≠ cfg.keyEnt) :
    (pollEffect cfg us ms c k).chan.aux = k.aux ∧ (pollEffect cfg us ms c k).events = [] := by
  rw [pollEffect_of_button hfinal.frameOpen hfinal.quietOver hcnt]
  exact keyEffect_of_not_enter ms k.close c _ h

end

/-- R138: the session that staleness leaves, on the machine and on the channel. -/
theorem dropStale_chan_eq (c : Chan) (s : State) :
    (dropStale c s).chan c = (s.chan c).dropStale s.cfg s.nowMs := by
  rw [dropStale_eq_setChan, chan_setChan_same]

/-- Settles O16: a poll is its effect on the channel, and each clause is one of the effect's. -/
theorem pollFrame : Obligations.PollFrame := by
  intro c s t ht k closes
  obtain rfl := pollChannel_next_eq ht
  rw [perform_chan, perform_out, dropStale_chan_eq]
  refine ⟨fun d hd => perform_chan_of_ne s c _ hd, pollEffect_ts _ _ _ c k, perform_cfg s c _,
    perform_nowUs s c _, perform_nowMs s c _, perform_input s c _, perform_ret s c _,
    fun hwait => ?_, fun hfinal => pollEffect_frame_of_final _ c hfinal,
    fun hfinal hcnt => pollEffect_session_of_credential _ c hfinal hcnt,
    fun hfinal hcnt => ⟨pollEffect_dig_of_control _ c hfinal hcnt, fun hcode => ?_⟩,
    fun hwf a ha => pollEffect_read _ _ _ c k hwf ha⟩
  · rw [pollEffect_of_not_final hwait, perform_nil, setChan_chan_self]
  · obtain ⟨haux, hevents⟩ := pollEffect_of_not_enter s.nowMs c hfinal hcnt hcode
    exact ⟨by rw [hevents, List.append_nil], haux⟩

/-- R116: POLLALL is the effect of a poll on each channel. -/
theorem execPollall_next_eq {s t : State} (h : execPollall s = .next t) :
    t = (s.perform .ch1 (pollEffect s.cfg s.nowUs s.nowMs .ch1 s.ch1)).perform .ch2
      (pollEffect s.cfg s.nowUs s.nowMs .ch2 s.ch2) := by
  obtain ⟨u, h1, h2⟩ := andThen_eq_next.mp h
  rw [pollChannel_next_eq h2, pollChannel_next_eq h1]
  rfl

/-- R116, R190: of a channel's registers and events POLLALL makes what the channel's own poll
makes. -/
theorem execPollall_next {s t : State} (h : execPollall s = .next t) (c : Chan) :
    let e := pollEffect s.cfg s.nowUs s.nowMs c (s.chan c)
    t.chan c = e.chan ∧ eventsOf c t.out = eventsOf c s.out ++ e.events := by
  have hlogs1 := pollEffect_logsOnly s.cfg s.nowUs s.nowMs .ch1 s.ch1
  have hlogs2 := pollEffect_logsOnly s.cfg s.nowUs s.nowMs .ch2 s.ch2
  rw [execPollall_next_eq h]
  cases c with
  | ch1 =>
    exact ⟨rfl, (eventsOf_perform_of_ne _ .ch2 _ hlogs2 (by decide)).trans
      (eventsOf_perform s .ch1 _ hlogs1)⟩
  | ch2 =>
    refine ⟨rfl, (eventsOf_perform _ .ch2 _ hlogs2).trans ?_⟩
    rw [eventsOf_perform_of_ne s .ch1 _ hlogs1 (by decide), chan_ch2]

/-- Settles O17: the clauses of each channel are those of its poll's effect. -/
theorem pollallFrame : Obligations.PollallFrame := by
  intro s t ht
  have hret : t.ret = s.ret := by rw [execPollall_next_eq ht, perform_ret, perform_ret]
  obtain ⟨hcfg, hus, hms, hinput⟩ := exec_sameInputs ht
  refine ⟨hcfg, hus, hms, hinput, hret, ?_⟩
  intro c k closes
  obtain ⟨hchan, hevents⟩ := execPollall_next ht c
  rw [hchan, hevents, dropStale_chan_eq]
  refine ⟨pollEffect_ts _ _ _ c k, fun hwait => by rw [pollEffect_of_not_final hwait],
    fun hfinal => pollEffect_frame_of_final _ c hfinal,
    fun hfinal hcnt => pollEffect_session_of_credential _ c hfinal hcnt,
    fun hfinal hcnt => ⟨pollEffect_dig_of_control _ c hfinal hcnt, fun hcode => ?_⟩,
    fun hwf a ha => pollEffect_read _ _ _ c k hwf ha⟩
  obtain ⟨haux, hnone⟩ := pollEffect_of_not_enter s.nowMs c hfinal hcnt hcode
  exact ⟨haux, by rw [hnone, List.append_nil]⟩

/-! ### What closes a frame (R24, R120) -/

/-- From `s` to `t` channel `d`, if it is open, stays open and keeps the time of its first bit. -/
def StaysOpen (d : Chan) (s t : State) : Prop :=
  (s.chan d).frameOpen = true → (t.chan d).frameOpen = true ∧ (t.chan d).ts = (s.chan d).ts

namespace StaysOpen

variable {c d : Chan} {s t : State}

theorem of_chan_eq (h : t.chan d = s.chan d) : StaysOpen d s t := fun hopen => by
  rw [h]; exact ⟨hopen, rfl⟩

/-- A write of a channel that leaves the channel open, and its `ts`. -/
theorem of_setChan {k : Channel}
    (hk : (s.chan c).frameOpen = true → k.frameOpen = true ∧ k.ts = (s.chan c).ts) :
    StaysOpen d s (s.setChan c k) := by
  obtain rfl | hd := eq_or_ne d c
  · unfold StaysOpen
    rwa [chan_setChan_same]
  · exact of_chan_eq (chan_setChan_of_ne s c d k hd)

/-- R100: an edge on an open channel appends its bit to the frame. -/
theorem capture (b : Bit) : StaysOpen d s (capture c b s) :=
  of_setChan fun hopen => by rw [captureBit_of_open hopen]; exact ⟨hopen, rfl⟩

theorem keyButton {code : Nat} (h : keyButton c code s = .next t) : StaysOpen d s t := by
  obtain ⟨-, -, hframe⟩ := keyEffect_frame s.cfg s.nowMs c code (s.chan c)
  rw [keyButton_next_eq h]
  obtain rfl | hd := eq_or_ne d c
  · intro hopen
    rw [perform_chan]
    exact ⟨hframe.trans hopen, keyEffect_ts _ _ _ _⟩
  · exact of_chan_eq (perform_chan_of_ne s c _ hd)

end StaysOpen

/-- R120: what is neither a poll of the channel nor RESET does not close its frame. -/
theorem exec_staysOpen {i : Instr} {s t : State} (h : exec i s = .next t) {d : Chan}
    (hreset : i ≠ .reset) (hpoll : ¬ (i = .poll d ∨ i = .pollall)) : StaysOpen d s t := by
  cases i with
  | reset => exact absurd rfl hreset
  | pollall => exact absurd (.inr rfl) hpoll
  | poll c =>
    have hd : d ≠ c := fun hd => hpoll (.inl (congrArg Instr.poll hd.symm))
    exact .of_chan_eq (by rw [pollChannel_next_eq h, perform_chan_of_ne _ _ _ hd])
  | edge0 c => exact next_inj h ▸ .capture 0
  | edge1 c => exact next_inj h ▸ .capture 1
  | dec0 v => exact .of_chan_eq (next_inj h ▸ returnId_chan _ _ _)
  | dec1 v => exact .of_chan_eq (next_inj h ▸ returnId_chan _ _ _)
  | w26 c l id tr => exact .of_chan_eq (next_inj h ▸ emit_chan _ _ _)
  | kesc c => exact next_inj h ▸ .of_setChan fun hopen => ⟨hopen, rfl⟩
  | rptf id ch => exact .of_chan_eq (next_inj h ▸ returnLine_chan _ _ _)
  | rptp digits ch => exact .of_chan_eq (next_inj h ▸ returnLine_chan _ _ _)
  | wkey c v => exact .keyButton h
  | key c code => exact .keyButton h
  | kent c =>
    obtain h' | ⟨j, h'⟩ := enter_cases c s
    · rw [← next_inj (h'.symm.trans h), ← emit_setChan]
      exact .of_setChan fun hopen => ⟨hopen, rfl⟩
    · cases h'.symm.trans h
  | kdigit c code =>
    obtain h' | ⟨j, h'⟩ := appendDigit_cases c code s
    · exact next_inj (h'.symm.trans h) ▸ .of_setChan fun hopen => ⟨hopen, rfl⟩
    · cases h'.symm.trans h

/-- Settles O48: RESET is left out; a poll of the channel closes it only if its frame is final, and
keeps `ts`; nothing else closes it. -/
theorem onlyClosingPollOrResetClosesFrame : Obligations.OnlyClosingPollOrResetClosesFrame := by
  intro i s t c h hopen
  obtain rfl | hreset := eq_or_ne i .reset
  · exact ⟨fun _ => .inl rfl, fun hne => absurd rfl hne⟩
  by_cases hpoll : i = .poll c ∨ i = .pollall
  · have hchan : t.chan c = (pollEffect s.cfg s.nowUs s.nowMs c (s.chan c)).chan := by
      obtain rfl | rfl := hpoll
      · rw [pollChannel_next_eq h, perform_chan]
      · exact (execPollall_next h c).1
    rw [hchan]
    refine ⟨fun hclosed => .inr ⟨hpoll, ?_⟩, fun _ => pollEffect_ts _ _ _ c _⟩
    by_contra hquiet
    rw [pollEffect_of_not_final fun hfinal => hquiet hfinal.2] at hclosed
    exact Bool.false_ne_true (hclosed.symm.trans hopen)
  · obtain ⟨hstill, hts⟩ := exec_staysOpen h hreset hpoll hopen
    exact ⟨fun hclosed => absurd (hclosed.symm.trans hstill) Bool.false_ne_true, fun _ => hts⟩

end Sys2Proof.Machine
end

section
/-! SUPPORT. The statements of 42_credential_decoder.md: what DEC0 and DEC1 answer (R127, R128,
R130), when a poll emits a credential (R131), and what of a 26-bit frame it depends on (R129). -/

namespace Sys2Proof.Machine

/-! ### The decoders (R127, R128, R130) -/

section
variable {cfg : Config} (h : cfg.Wf)
include h

/-- R7: a frame's value fits the id output. -/
theorem toNat_lt_two_pow_idw (v : RawFrame) : v.toNat < 2 ^ cfg.idw :=
  h.idw_eq ▸ v.isLt

/-- R127: the id output has room for all of the frame. -/
theorem dec0Value_eq_toNat (v : RawFrame) : dec0Value cfg v = v.toNat :=
  Nat.mod_eq_of_lt (toNat_lt_two_pow_idw h v)

/-- R128's formula: the id output has room for the shifted value. -/
theorem dec1Value_eq_mask_shift (v : RawFrame) :
    dec1Value cfg v = ((v &&& ~~~((1 : RawFrame) <<< 25)) >>> 1).toNat :=
  Nat.mod_eq_of_lt (toNat_lt_two_pow_idw h _)

/-- R128: what is left of a frame is its bits 24:1. -/
theorem dec1Value_eq_extractLsb' (v : RawFrame) :
    dec1Value cfg v = (v.extractLsb' 1 24).toNat := by
  have hpayload : v.toNat / 2 % 2 ^ 24 = (v.extractLsb' 1 24).toNat := by
    rw [BitVec.extractLsb'_toNat, Nat.shiftRight_eq_div_pow, pow_one]
  have hfits : 2 ^ 24 ≤ 2 ^ cfg.idw := Nat.pow_le_pow_right two_pos (by rw [h.idw_eq]; decide)
  rw [dec1Value_eq, hpayload]
  exact Nat.mod_eq_of_lt ((v.extractLsb' 1 24).isLt.trans_le hfits)

/-- R130: the payload of a frame comes back, whatever its parity bits. -/
theorem dec1Value_frameValue (l : Bit) (id : Payload) (t : Bit) :
    dec1Value cfg (frameValue l id t) = id.toNat := by
  obtain ⟨-, hid, -⟩ := frameValue_fields l id t
  rw [dec1Value_eq_extractLsb' h, hid]

end

/-- R73: the number `(L << 25) | (id << 1) | T` is the frame of its three fields. -/
theorem ofNat_or_eq_frameValue {l id t : Nat} (hl : l ≤ 1) (hid : id < 2 ^ 24) (ht : t ≤ 1) :
    BitVec.ofNat 26 ((l <<< 25) ||| (id <<< 1) ||| t) =
      frameValue (BitVec.ofNat 1 l) (BitVec.ofNat 24 id) (BitVec.ofNat 1 t) := by
  rw [← credentialValue_toNat (frameValue _ _ _), frameValue_toNat_eq_or,
    BitVec.toNat_ofNat, BitVec.toNat_ofNat, BitVec.toNat_ofNat, Nat.mod_eq_of_lt hid,
    Nat.mod_eq_of_lt (Nat.lt_succ_of_le hl), Nat.mod_eq_of_lt (Nat.lt_succ_of_le ht),
    credentialValue]

/-- Settles O19. -/
theorem decZeroPassesThrough : Obligations.DecZeroPassesThrough := by
  intro v s hcfg
  rw [← dec0Value_eq_toNat hcfg v]
  rfl

/-- Settles O20: the formula and the slice are two forms of `dec1Value`. -/
theorem decOneStripsParity : Obligations.DecOneStripsParity := fun v s hcfg =>
  ⟨dec1Value s.cfg v, rfl, dec1Value_eq_mask_shift hcfg v, dec1Value_eq_extractLsb' hcfg v,
    Nat.le_pred_of_lt (dec1Value_lt s.cfg v)⟩

/-- Settles O21: the constructed value is a frame, and DEC1 of a frame is its payload. -/
theorem credentialRoundTrip : Obligations.CredentialRoundTrip := by
  intro l id t s hcfg hl ht hid
  have hvalue : dec1Value s.cfg (BitVec.ofNat 26 ((l <<< 25) ||| (id <<< 1) ||| t)) = id := by
    rw [ofNat_or_eq_frameValue hl hid ht, dec1Value_frameValue hcfg, BitVec.toNat_ofNat,
      Nat.mod_eq_of_lt hid]
  exact congrArg (fun n => Host.Outcome.next (returnId n s)) hvalue

/-! ### When a poll emits a credential (R113, R131) -/

/-- An effect that logs an event logs it alone, for the channel that was addressed. -/
theorem Effect.LogsOnly.of_mem {c : Chan} {e : Effect} (h : e.LogsOnly c) {ev : Event}
    (hev : ev ∈ e.events) : ev.chan = c ∧ e.events = [ev] := by
  obtain ⟨hlen, hchan⟩ := h
  obtain ⟨ev', hone⟩ := List.length_eq_one_iff.mp (hlen.antisymm (List.length_pos_of_mem hev))
  have hsame : ev = ev' := List.mem_singleton.mp (hone ▸ hev)
  exact ⟨hchan ev hev, hsame ▸ hone⟩

/-- R131: the final 26-bit frames are those of which a poll makes a credential. -/
theorem pollEffect_events_eq_cred_iff (cfg : Config) (us ms : Nat) (c : Chan) (k : Channel) :
    (∃ id, (pollEffect cfg us ms c k).events = [.cred id c]) ↔
      FrameFinal cfg us k ∧ k.cnt = credentialWidth := by
  obtain ⟨hwait, h⟩ | ⟨hfinal, hcnt, h⟩ | ⟨-, hcnt, h⟩ := pollEffect_cases cfg us ms c k <;>
    rw [h]
  · exact iff_of_false (by simp) fun ⟨hfinal, _⟩ => hwait hfinal
  · exact iff_of_true ⟨_, rfl⟩ ⟨hfinal, hcnt⟩
  · exact iff_of_false (fun ⟨id, hid⟩ => keyEffect_events_ne_cred cfg ms c _ _ id hid)
      fun ⟨_, hcredential⟩ => hcnt hcredential

/-- Settles O14: what a poll appends to `out` is what its effect logs. -/
theorem oneCredentialPerClosedCredentialFrame :
    Obligations.OneCredentialPerClosedCredentialFrame := by
  intro c s t ht
  obtain rfl := pollChannel_next_eq ht
  rw [perform_out, List.drop_left]
  simp only [List.append_cancel_left_eq]
  refine ⟨and_assoc.symm.trans (pollEffect_events_eq_cred_iff _ _ _ c _).symm,
    fun id d hmem => ?_⟩
  obtain ⟨rfl, hone⟩ := (pollEffect_logsOnly _ _ _ c _).of_mem hmem
  exact ⟨rfl, hone⟩

/-! ### What a credential depends on (R129) -/

/-- R110, R126: what a poll makes of a final 26-bit frame. -/
theorem pollChannel_eq_perform_cred {c : Chan} {s : State} (hcfg : s.cfg.Wf)
    (hfinal : FrameFinal s.cfg s.nowUs (s.chan c)) (hcnt : (s.chan c).cnt = credentialWidth) :
    pollChannel c s = .next (s.perform c ⟨(s.chan c).close, [.cred
      (if s.cfg.fmt = 0 then (s.chan c).buf % 2 ^ 26 else (s.chan c).buf / 2 % 2 ^ 24) c]⟩) := by
  rw [pollChannel_of_credential hfinal.frameOpen hfinal.quietOver hcnt, credentialFrame,
    closeFrame_cfg, closeFrame_eq_setChan, decValue_credentialValue hcfg, emit_setChan,
    perform_singleton]

/-- R129: on the value of a final 26-bit frame, what a poll leaves depends through the id alone. -/
theorem pollChannel_of_credential_buf {c : Chan} {s : State} (hcfg : s.cfg.Wf)
    (hfinal : FrameFinal s.cfg s.nowUs (s.chan c)) (hcnt : (s.chan c).cnt = credentialWidth)
    (buf : Nat) : pollChannel c (s.setChan c { s.chan c with buf := buf }) =
      .next (s.perform c ⟨(s.chan c).close,
        [.cred (if s.cfg.fmt = 0 then buf % 2 ^ 26 else buf / 2 % 2 ^ 24) c]⟩) := by
  rw [pollChannel_eq_perform_cred (by rwa [setChan_cfg])
    (by rwa [setChan_cfg, setChan_nowUs, chan_setChan_same]) (by rwa [chan_setChan_same]),
    perform_of_setChan, chan_setChan_same, setChan_cfg]
  rfl

/-- Settles O23: under format 1 both frames have one id, under format 0 the id is the frame. -/
theorem parityBitsInfluenceNothing : Obligations.ParityBitsInfluenceNothing := by
  intro c s buf hcfg hopen hquiet hcnt s'
  have hgiven := pollChannel_eq_perform_cred hcfg ⟨hopen, hquiet⟩ hcnt
  have hother := pollChannel_of_credential_buf hcfg ⟨hopen, hquiet⟩ hcnt buf
  refine ⟨fun hfmt hagree => ?_, fun hfmt => ?_⟩
  · have hne : s.cfg.fmt ≠ 0 := by rw [hfmt]; decide
    rw [if_neg hne] at hgiven hother
    rw [hagree] at hother
    exact ⟨_, hgiven, hother⟩
  · rw [if_pos hfmt] at hgiven hother
    exact ⟨_, _, hgiven, hother, rfl, rfl⟩

end Sys2Proof.Machine
end

section
/-! SUPPORT. The statements of 43_keypad.md: the three actions of a button (R142, R144, R146), the
dispatch around them (R136 to R138, R150), the rows of the session's table (R140, R151), and what a
session holds after any number of digits (R147). -/

namespace Sys2Proof.Machine

/-! ### Digits from an empty session (R146, R147) -/

/-- R146 on the channel, digit after digit. -/
def appendDigits (cfg : Config) (codes : List Nat) (k : Channel) : Channel :=
  codes.foldl (fun k code => appendChannel cfg code k) k

theorem appendDigits_concat (cfg : Config) (codes : List Nat) (code : Nat) (k : Channel) :
    appendDigits cfg (codes ++ [code]) k = appendChannel cfg code (appendDigits cfg codes k) :=
  List.foldl_concat _ _ _ _

/-- R146: consecutive digits complete, and write the session of their channel alone. -/
theorem pressAll_eq_appendDigits (c : Chan) (codes : List Nat) {s : State} (hcfg : s.cfg.Wf) :
    pressAll c codes s = .next (s.setChan c (appendDigits s.cfg codes (s.chan c))) := by
  induction codes generalizing s with
  | nil => exact congrArg Host.Outcome.next (setChan_chan_self s c).symm
  | cons code codes ih =>
    rw [pressAll, exec, execKdigit, appendDigit_next hcfg, andThen_next, ih (by rwa [setChan_cfg]),
      setChan_setChan, setChan_cfg, chan_setChan_same]
    rfl

/-- R147: the length of the session after `m` digits from EMPTY. -/
def pressedLen (cfg : Config) (m : Nat) : Nat :=
  if m ≤ cfg.pcap then m else (m - cfg.pcap - 1) % (cfg.pcap - 1) + 2

section
variable {cfg : Config} {m : Nat}

theorem pressedLen_of_le (h : m ≤ cfg.pcap) : pressedLen cfg m = m := if_pos h

theorem pressedLen_of_lt (h : cfg.pcap < m) :
    pressedLen cfg m = (m - cfg.pcap - 1) % (cfg.pcap - 1) + 2 := if_neg (Nat.not_le_of_lt h)

theorem pressedLen_pos (h : 0 < m) : 0 < pressedLen cfg m := by
  unfold pressedLen
  split_ifs
  exacts [h, Nat.succ_pos _]

theorem pressedLen_le (hcfg : cfg.Wf) (m : Nat) : pressedLen cfg m ≤ m := by
  have hcap := hcfg.two_le_pcap
  obtain hfits | hover := le_or_gt m cfg.pcap
  · exact (pressedLen_of_le hfits).le
  · have hmod := Nat.mod_le (m - cfg.pcap - 1) (cfg.pcap - 1)
    rw [pressedLen_of_lt hover]
    omega

/-- R147 from R146: the closed form counts as a digit does. -/
theorem pressedLen_succ (hcfg : cfg.Wf) (m : Nat) :
    pressedLen cfg (m + 1) = writeIndex cfg (pressedLen cfg m) + 1 := by
  have hcap := hcfg.two_le_pcap
  unfold writeIndex
  obtain hroom | rfl | hover := Nat.lt_trichotomy m cfg.pcap
  · rw [pressedLen_of_le hroom, pressedLen_of_le hroom.le, if_neg (Nat.not_le_of_lt hroom)]
  · rw [pressedLen_of_lt (Nat.lt_add_one _), pressedLen_of_le le_rfl, if_pos le_rfl,
      Nat.add_sub_cancel_left, Nat.sub_self, Nat.zero_mod]
  · have hlt : (m - cfg.pcap - 1) % (cfg.pcap - 1) < cfg.pcap - 1 := Nat.mod_lt _ (by omega)
    rw [pressedLen_of_lt (Nat.lt_succ_of_lt hover), pressedLen_of_lt hover,
      show m + 1 - cfg.pcap - 1 = m - cfg.pcap - 1 + 1 by omega, ← Nat.mod_add_mod]
    split_ifs with hfull
    · rw [show (m - cfg.pcap - 1) % (cfg.pcap - 1) + 1 = cfg.pcap - 1 by omega, Nat.mod_self]
    · rw [Nat.mod_eq_of_lt (by omega)]

end

/-- R147, for any number of digits from EMPTY: the session begins with the first character, and the
cells behind it hold the latest ones, the very last in the last cell. -/
structure Pressed (cfg : Config) (codes : List Nat) (k : Channel) : Prop where
  dig_wf : Memory.wf k.dig = true
  dig_below : Memory.below cfg.pcap k.dig = true
  len_eq : k.len = pressedLen cfg codes.length
  first : ∀ h : 0 < codes.length, Memory.read k.dig 0 = digitChar codes[0]
  latest : ∀ a i (h : i < codes.length), 0 < a → a < k.len → i + k.len = codes.length + a →
    Memory.read k.dig a = digitChar codes[i]

section
variable {cfg : Config} {codes : List Nat} {k : Channel} (hcfg : cfg.Wf)
include hcfg

theorem appendChannel_len (code : Nat) (k : Channel) :
    (appendChannel cfg code k).len = writeIndex cfg k.len + 1 :=
  writeIndex_add_one hcfg k.len

/-- R146: one more digit goes behind the others, or to index 1 of a full session, of which only the
first character then counts. -/
theorem Pressed.concat (h : Pressed cfg codes k) (code : Nat) :
    Pressed cfg (codes ++ [code]) (appendChannel cfg code k) := by
  have hread (a : Nat) : Memory.read (appendChannel cfg code k).dig a =
      if a = writeIndex cfg k.len then digitChar code else Memory.read k.dig a :=
    Memory.read_write h.dig_wf _ a _
  have hle : k.len ≤ codes.length := h.len_eq.trans_le (pressedLen_le hcfg _)
  have hindex : writeIndex cfg k.len = 1 ∨ writeIndex cfg k.len = k.len := ite_eq_or_eq _ _ _
  refine ⟨Memory.wf_write h.dig_wf _ _,
    Memory.below_write h.dig_below (writeIndex_lt hcfg k.len) _, ?_, fun hpos => ?_,
    fun a i hi ha hlt hpair => ?_⟩
  · rw [appendChannel_len hcfg, h.len_eq, List.length_append, List.length_singleton,
      pressedLen_succ hcfg]
  · rw [hread]
    obtain hnone | hsome := Nat.eq_zero_or_pos codes.length
    · have hzero : 0 = writeIndex cfg k.len := by
        have := writeIndex_le hcfg k.len
        omega
      rw [if_pos hzero, List.getElem_concat_length hnone.symm]
    · have hlen : 0 < k.len := h.len_eq ▸ pressedLen_pos hsome
      rw [if_neg (by omega), List.getElem_append_left hsome, h.first hsome]
  · rw [appendChannel_len hcfg] at hlt hpair
    rw [List.length_append, List.length_singleton] at hpair
    rw [hread]
    split_ifs with hlast
    · rw [List.getElem_concat_length (by omega)]
    · rw [List.getElem_append_left (show i < codes.length by omega)]
      exact h.latest a i _ ha (by omega) (by omega)

/-- R147 by induction on the digits. -/
theorem pressed_appendDigits (codes : List Nat) (hempty : k.len = 0)
    (hwf : Memory.wf k.dig = true) (hbelow : Memory.below cfg.pcap k.dig = true) :
    Pressed cfg codes (appendDigits cfg codes k) := by
  induction codes using List.reverseRecOn with
  | nil =>
    exact ⟨hwf, hbelow, hempty.trans (pressedLen_of_le (Nat.zero_le _)).symm,
      fun h => absurd h (Nat.not_lt_zero _), fun _ _ h => absurd h (Nat.not_lt_zero _)⟩
  | append_singleton codes code ih => rw [appendDigits_concat]; exact ih.concat hcfg code

end

/-- Settles O33: the closed form of the length, and the two clauses of `Pressed` about characters,
on either side of the capacity. -/
theorem overflowKeepsFirstCharacter : Obligations.OverflowKeepsFirstCharacter := by
  intro c codes s hm hcfg hempty hwf hbelow
  refine ⟨_, pressAll_eq_appendDigits c codes hcfg, ?_⟩
  rw [chan_setChan_same]
  intro k m pcap
  have h : Pressed s.cfg codes k := pressed_appendDigits hcfg codes hempty hwf hbelow
  refine ⟨h.first hm, h.dig_below, fun hfits => ?_, fun hover => ?_⟩
  · have hlen : k.len = m := h.len_eq.trans (pressedLen_of_le hfits)
    refine ⟨hlen, fun i hi => ?_⟩
    obtain rfl | hpos := Nat.eq_zero_or_pos i
    · exact h.first hm
    · exact h.latest i i hi hpos (hlen ▸ hi) (by omega)
  · intro j
    have hlen : k.len = j + 2 := h.len_eq.trans (pressedLen_of_lt hover)
    have hle : k.len ≤ m := h.len_eq.trans_le (pressedLen_le hcfg m)
    exact ⟨hlen, by omega, fun i hij hi => h.latest _ _ hi (by omega) (by omega) (by omega)⟩

/-! ### The three actions (R142, R144, R146) -/

/-- Settles O25: ESCAPE's meaning is that one write. -/
theorem escapeEmptiesSession : Obligations.EscapeEmptiesSession := fun _ _ => ⟨rfl, rfl⟩

section
variable (k : Channel)

/-- R31, R54: the passcode in index order. -/
theorem passcode_eq_map_range :
    k.passcode = (List.range k.len).map fun i => Memory.read k.dig i := by
  rw [Channel.passcode, List.range_eq_range']

/-- R144: what ENTER writes to `aux[c]`, its two conditions spelled out. -/
theorem auxFlag_eq_decide :
    auxFlag k = decide (1 ≤ k.len ∧ Memory.read k.dig 0 = 0x38) :=
  (Bool.decide_and _ _).symm

end

/-- Settles O26: what ENTER emits is the passcode, and what it writes to `aux[c]` is its test. -/
theorem enterSubmitsPasscode : Obligations.EnterSubmitsPasscode := by
  intro c s hlen k digits
  have hnext : exec (.kent c) s = _ := enter_next hlen
  rw [auxFlag_eq_decide, passcode_eq_map_range] at hnext
  exact ⟨hnext, rfl⟩

/-- Settles O27: the index lies in the store, so the write is made and the count does not wrap. -/
theorem digitAppendsOrWraps : Obligations.DigitAppendsOrWraps := by
  intro c code s hcfg hwf k index
  have hindex : index < s.cfg.pcap := writeIndex_lt hcfg k.len
  have hnext : exec (.kdigit c code) s = _ := appendDigit_next hcfg c code
  rw [appendChannel, writeIndex_add_one hcfg] at hnext
  exact ⟨Memory.write k.dig index (digitChar code), hnext, hindex,
    (Nat.succ_le_of_lt hindex).trans_lt hcfg.pcap_lt, Memory.wf_write hwf _ _,
    fun a => Memory.read_write hwf _ a _⟩

/-! ### The dispatch around them (R136, R137, R138, R150) -/

/-- Settles O24: the action leaves the clock, so the timestamp is the sample KEY came with. -/
theorem keyTestsActsStamps : Obligations.KeyTestsActsStamps := by
  intro c code s k s1 action
  have hs1 : s1 = dropStale c s := (dropStale_eq_ite c s).symm
  have haction : action = buttonAction c code (dropStale c s) := by
    rw [buttonAction, dropStale_cfg, ← hs1]
    rfl
  rw [haction]
  refine ⟨fun t ht => ?_, fun hs => ?_⟩
  · have hms : t.nowMs = s.nowMs := by
      rw [buttonAction_next_eq ht, perform_nowMs, dropStale_nowMs]
    rw [← hms]
    exact thenDo_eq_next.mpr ⟨t, ht, rfl⟩
  · have hd := hs.dropStale c
    exact ⟨_, buttonAction_eq_perform hd.cfg (hd.chan c).len_le code⟩

/-- Settles O29: a session of the invariant lies in the store, and the timestamp comes last. -/
theorem everyButtonStampsLast : Obligations.EveryButtonStampsLast := by
  intro c code s hs
  obtain ⟨t, ht⟩ := keyButton_next (code := code) hs.cfg (hs.chan c).len_le
  exact ⟨t, ht, keyButton_last ht⟩

/-- Settles O30: a button is its effect on the channel, and each clause is one of the effect's. -/
theorem buttonFrame : Obligations.ButtonFrame := by
  intro c code i s t hi ht hwf
  have hkey : keyButton c code s = .next t := by
    obtain rfl | ⟨v, rfl, rfl⟩ := hi <;> exact ht
  obtain rfl := keyButton_next_eq hkey
  obtain ⟨hbuf, hcnt, hopen⟩ := keyEffect_frame s.cfg s.nowMs c code (s.chan c)
  rw [perform_chan, perform_out, dropStale_chan_eq]
  refine ⟨fun d hd => perform_chan_of_ne s c _ hd, hbuf, hcnt, hopen, keyEffect_ts _ _ c code,
    perform_cfg s c _, perform_nowUs s c _, perform_nowMs s c _, perform_input s c _,
    perform_ret s c _, keyEffect_dig_of_control _ _ c code, fun hcode => ?_,
    fun a ha => keyEffect_read _ _ c code hwf ha⟩
  obtain ⟨haux, hevents⟩ := keyEffect_of_not_enter s.nowMs (s.chan c) c code hcode.symm
  exact ⟨by rw [hevents, List.append_nil], haux⟩

/-! ### The rows of the session's table (R140, R151) -/

section
variable {cfg : Config} {ms : Nat} {k : Channel}

theorem Channel.dropStale_of_stale
    (h : k.len ≠ 0 ∧ cfg.buttonTimeoutMs < elapsed cfg ms k.last) :
    k.dropStale cfg ms = { k with len := 0 } :=
  if_pos ((stale_iff cfg ms k).mpr h)

theorem Channel.dropStale_of_fresh
    (h : ¬ (k.len ≠ 0 ∧ cfg.buttonTimeoutMs < elapsed cfg ms k.last)) :
    k.dropStale cfg ms = k :=
  if_neg (mt (stale_iff cfg ms k).mp h)

theorem Channel.passcode_of_empty (h : k.len = 0) : k.passcode = [] := by
  rw [Channel.passcode, h]
  rfl

variable {code : Nat} (ms k) (c : Chan)

theorem keyEffect_of_escape (h : code = cfg.keyEsc) : keyEffect cfg ms c code k =
    ⟨{ k.dropStale cfg ms with len := 0, last := ms }, []⟩ := by
  simp only [keyEffect, buttonEffect, if_pos h]

theorem keyEffect_of_enter (hesc : code ≠ cfg.keyEsc) (hent : code = cfg.keyEnt) :
    keyEffect cfg ms c code k =
      ⟨{ k.dropStale cfg ms with aux := auxFlag (k.dropStale cfg ms), len := 0, last := ms },
        [.pass (k.dropStale cfg ms).passcode c]⟩ := by
  simp only [keyEffect, buttonEffect, if_neg hesc, if_pos hent]

theorem keyEffect_of_digit (hesc : code ≠ cfg.keyEsc) (hent : code ≠ cfg.keyEnt) :
    keyEffect cfg ms c code k =
      ⟨{ appendChannel cfg code (k.dropStale cfg ms) with last := ms }, []⟩ := by
  simp only [keyEffect, buttonEffect, if_neg hesc, if_neg hent]

variable {k}

/-- R146: in a session that is not full a digit goes behind the passcode. -/
theorem appendChannel_passcode (hcfg : cfg.Wf) (hwf : Memory.wf k.dig = true)
    (hroom : k.len < cfg.pcap) (code : Nat) :
    (appendChannel cfg code k).passcode = k.passcode ++ [digitChar code] := by
  have hindex : writeIndex cfg k.len = k.len := if_neg (Nat.not_le_of_lt hroom)
  have hold : ∀ i ∈ List.range k.len,
      Memory.read (appendChannel cfg code k).dig i = Memory.read k.dig i := by
    intro i hi
    rw [appendChannel, Memory.read_write hwf, hindex, if_neg (List.mem_range.mp hi).ne]
  have hnew : Memory.read (appendChannel cfg code k).dig k.len = digitChar code := by
    rw [appendChannel, Memory.read_write hwf, hindex, if_pos rfl]
  rw [passcode_eq_map_range, passcode_eq_map_range, appendChannel_len hcfg, hindex,
    List.range_succ, List.map_append, List.map_congr_left hold, List.map_singleton, hnew]

end

/-- Settles O31: the digit goes behind the passcode that staleness leaves. -/
theorem lateDigitDiscardsPasscode : Obligations.LateDigitDiscardsPasscode := by
  intro c code s hs hesc hent k gap
  have hk : k.Inv s.cfg := hs.chan c
  have hnext := keyButton_eq_perform hs.cfg hk.len_le code
  rw [keyEffect_of_digit _ _ c hesc hent] at hnext
  refine ⟨_, hnext, List.append_nil _, ?_, fun d hd => perform_chan_of_ne s c _ hd,
    fun hsome hlate => ?_, fun hsoon hroom => ?_⟩ <;> rw [perform_chan]
  · exact Channel.dropStale_aux s.cfg s.nowMs k
  · have hpos : 0 < s.cfg.pcap := Nat.zero_lt_of_lt hs.cfg.two_le_pcap
    rw [Channel.dropStale_of_stale ⟨hsome, hlate⟩]
    exact appendChannel_passcode (k := { k with len := 0 }) hs.cfg hk.dig_wf hpos code
  · rw [Channel.dropStale_of_fresh fun h => Nat.not_le_of_lt h.2 hsoon]
    exact appendChannel_passcode hs.cfg hk.dig_wf hroom code

/-- Settles O32: the three actions on a session that staleness leaves as it is. -/
theorem sessionTransitionTable : Obligations.SessionTransitionTable := by
  intro c code s hs k hfresh
  have hk : k.Inv s.cfg := hs.chan c
  have hfresh := Channel.dropStale_of_fresh hfresh
  have hnext := keyButton_eq_perform hs.cfg hk.len_le code
  refine ⟨_, hnext, keyButton_last hnext, ?_⟩
  rw [perform_chan, perform_out]
  refine ⟨fun hesc => ?_, fun hent hempty => ?_, fun hent hsome => ?_, fun hesc hent => ?_⟩
  · rw [keyEffect_of_escape _ _ c hesc, hfresh]
    exact ⟨rfl, List.append_nil _, rfl⟩
  · rw [keyEffect_of_enter _ _ c (hent ▸ hs.cfg.esc_ne_ent.symm) hent, hfresh, auxFlag_eq_decide,
      Channel.passcode_of_empty hempty]
    exact ⟨rfl, rfl, decide_eq_false fun h => absurd hempty (Nat.ne_of_gt h.1)⟩
  · rw [keyEffect_of_enter _ _ c (hent ▸ hs.cfg.esc_ne_ent.symm) hent, hfresh, auxFlag_eq_decide,
      passcode_eq_map_range]
    exact ⟨rfl, rfl, decide_eq_decide.mpr (and_iff_right (Nat.one_le_iff_ne_zero.mpr hsome))⟩
  · rw [keyEffect_of_digit _ _ c hesc hent, hfresh, appendChannel_len hs.cfg]
    have hcap := hs.cfg.two_le_pcap
    refine ⟨List.append_nil _, rfl, fun hempty => ?_, fun _ hroom => ?_, fun hfull => ?_⟩
    · rw [writeIndex, if_neg (by omega), hempty]
    · rw [writeIndex, if_neg (Nat.not_le_of_lt hroom)]
    · rw [writeIndex, if_pos hfull.ge]

end Sys2Proof.Machine
end

section
/-! SUPPORT. The statements of 44_reporter.md: the lines RPTF and RPTP write, and the events read
back from them. -/

namespace Sys2Proof.Machine

/-! ### The text of a line (R161, R162, R163) -/

/-- What the lines of both events share: the tag, the event's text, a comma and the channel's one
character (R160, R163). -/
def lineText (tag : Byte) (text : List Byte) (ch : Chan) : List Byte :=
  [tag] ++ text ++ [0x2C] ++ [digitChar (chanNumber ch)]

/-- R163: the decimal text of a channel number is one character. -/
theorem decText_chanNumber (ch : Chan) : decText (chanNumber ch) = [digitChar (chanNumber ch)] := by
  cases ch <;> rfl

/-- R161: the credential line is its text and the terminator. -/
theorem credLine_eq (cfg : Config) (id : Nat) (ch : Chan) :
    credLine cfg id ch = lineText 0x46 (decText id) ch ++ cfg.nl := by
  simp [credLine, lineText, decText_chanNumber]

/-- R162: the passcode line is its text and the terminator. -/
theorem passLine_eq (cfg : Config) (digits : List Byte) (ch : Chan) :
    passLine cfg digits ch = lineText 0x50 digits ch ++ cfg.nl := by
  simp [passLine, lineText, decText_chanNumber]

/-- Settles O34: RPTF hands out its line, whose channel is one character. -/
theorem credentialLine : Obligations.CredentialLine := by
  intro id ch s
  have hexec : exec (.rptf id ch) s = .next (returnLine (credLine s.cfg id ch) s) := rfl
  rw [hexec, credLine_eq]
  cases ch <;> rfl

/-- Settles O35: RPTP hands out its line, whose channel is one character. -/
theorem passcodeLine : Obligations.PasscodeLine := by
  intro digits ch s
  have hexec : exec (.rptp digits ch) s = .next (returnLine (passLine s.cfg digits ch) s) := rfl
  rw [hexec, passLine_eq]
  cases ch <;> rfl

/-! ### The lines of a run (R160, R165, R166) -/

/-- R166: an event's line begins with the tag of its kind. -/
theorem eventLine_head? (cfg : Config) (e : Event) :
    (eventLine cfg e).head? = some 0x46 ∨ (eventLine cfg e).head? = some 0x50 := by
  cases e with
  | cred id ch => exact .inl rfl
  | pass digits ch => exact .inr rfl

/-- Settles O38: the lines are the events' lines in the order of `out`, each with its tag. -/
theorem oneLinePerEvent : Obligations.OneLinePerEvent := by
  intro s
  refine ⟨List.length_map _, fun i => List.getElem?_map, fun line hline => ?_⟩
  obtain ⟨e, -, rfl⟩ := List.mem_map.mp hline
  exact eventLine_head? s.cfg e

/-! ### Reading a line back (R162) -/

theorem splitLastComma_of_notMem {text : List Byte} (h : 0x2C ∉ text) :
    splitLastComma text = none := by
  induction text with
  | nil => rfl
  | cons b rest ih =>
    obtain ⟨hb, hrest⟩ := List.ne_and_not_mem_of_not_mem_cons h
    rw [splitLastComma, ih hrest]
    exact if_neg hb.symm

/-- A comma with none behind it is the last one, whatever stands before it. -/
theorem splitLastComma_append_comma (front : List Byte) {back : List Byte} (h : 0x2C ∉ back) :
    splitLastComma (front ++ 0x2C :: back) = some (front, back) := by
  induction front with
  | nil => rw [List.nil_append, splitLastComma, splitLastComma_of_notMem h]; rfl
  | cons b rest ih => rw [List.cons_append, splitLastComma, ih]

/-- The last comma of a line's text stands before the channel, even if the event's own text has
commas, so the reader finds the tag, the text and the channel. -/
theorem splitLastComma_lineText (text : List Byte) (ch : Chan) :
    splitLastComma (text ++ [0x2C] ++ [digitChar (chanNumber ch)]) =
      some (text, [digitChar (chanNumber ch)]) := by
  rw [List.append_assoc]
  exact splitLastComma_append_comma text (by cases ch <;> decide)

/-- The reader tells the channels apart by their characters. -/
theorem chan_of_digitChar (ch : Chan) :
    (if digitChar (chanNumber ch) = 0x31 then Chan.ch1 else Chan.ch2) = ch := by
  cases ch <;> rfl

/-- The tag says which event the text and the channel are read as. -/
theorem readLine_lineText (tag : Byte) (text : List Byte) (ch : Chan) :
    readLine (lineText tag text ch) =
      if tag = 0x46 then some (.cred (decNumber text) ch)
      else if tag = 0x50 then some (.pass text ch)
      else none := by
  have hsplit := splitLastComma_lineText text ch
  simp only [lineText, List.cons_append, List.nil_append, readLine, hsplit, chan_of_digitChar]

/-- R162: with codes of four bits the characters of a passcode are the bytes `0x30..0x3F`. -/
theorem toNat_mem_of_isDigitChar {cfg : Config} (hkeyw : cfg.keyw = 4) {b : Byte}
    (h : isDigitChar cfg b = true) : 0x30 ≤ b.toNat ∧ b.toNat ≤ 0x3F := by
  have hlt : (b - 0x30#8).toNat < 2 ^ 4 := hkeyw ▸ of_decide_eq_true h
  bv_omega

theorem isDigitChar_of_mem {cfg : Config} {digits : List Byte}
    (h : isDigitString cfg digits = true) {b : Byte} (hb : b ∈ digits) :
    isDigitChar cfg b = true :=
  List.all_eq_true.mp (Bool.and_eq_true_iff.mp h).2 b hb

/-- Settles O37: the reader undoes each kind of line, and the log's invariant bounds the bytes of a
passcode. -/
theorem linesReadBack : Obligations.LinesReadBack := by
  intro cfg e he
  cases e with
  | cred id ch =>
    refine ⟨lineText 0x46 (decText id) ch, credLine_eq cfg id ch, ?_, nofun⟩
    rw [readLine_lineText, if_pos rfl, decNumber_decText]
  | pass digits ch =>
    refine ⟨lineText 0x50 digits ch, passLine_eq cfg digits ch, readLine_lineText _ _ _, ?_⟩
    rintro _ _ ⟨⟩ b hb
    have hdigit := isDigitChar_of_mem he hb
    exact ⟨hdigit, fun hkeyw => toNat_mem_of_isDigitChar hkeyw hdigit⟩

end Sys2Proof.Machine
end

section
/-! SUPPORT. The statements of 60_exceptions.md: every operation has a next state (R170), which
context writes what (R182), and a channel as a machine of its own (R190). -/

namespace Sys2Proof.Machine

/-! ### Totality (R170) -/

section
variable {s : State} (h : s.Inv)
include h

theorem State.Inv.keyButton_next (c : Chan) (code : Nat) :
    ∃ t, Machine.keyButton c code s = .next t :=
  Machine.keyButton_next h.cfg (h.chan c).len_le

theorem State.Inv.pollChannel_next (c : Chan) : ∃ t, Machine.pollChannel c s = .next t :=
  ⟨_, pollChannel_eq_perform h.cfg (h.chan c).len_le⟩

/-- R170: an operation could stop only at a digit cell the store does not have, and no session of the
invariant leads there. -/
theorem State.Inv.exec_next (i : Instr) : ∃ t, exec i s = .next t := by
  cases i with
  | edge0 c => exact ⟨_, rfl⟩
  | edge1 c => exact ⟨_, rfl⟩
  | reset => exact ⟨_, rfl⟩
  | dec0 v => exact ⟨_, rfl⟩
  | dec1 v => exact ⟨_, rfl⟩
  | w26 c l id tr => exact ⟨_, rfl⟩
  | kesc c => exact ⟨_, rfl⟩
  | rptf id ch => exact ⟨_, rfl⟩
  | rptp digits ch => exact ⟨_, rfl⟩
  | poll c => exact h.pollChannel_next c
  | wkey c v => exact h.keyButton_next c _
  | key c code => exact h.keyButton_next c code
  | kent c => exact ⟨_, enter_next (h.chan c).len_le⟩
  | kdigit c code => exact ⟨_, appendDigit_next h.cfg c code⟩
  | pollall =>
    obtain ⟨t, ht⟩ := h.pollChannel_next .ch1
    obtain ⟨u, hu⟩ := (h.pollChannel ht).pollChannel_next .ch2
    exact ⟨u, andThen_eq_next.mpr ⟨t, ht, hu⟩⟩

end

/-- Settles O44: a step that is not refused is idle or runs an operation. -/
theorem everyOperationIsTotal : Obligations.EveryOperationIsTotal := by
  intro s hs
  refine ⟨hs.exec_next, ?_⟩
  obtain ⟨-, h⟩ | ⟨r, rest, -, ⟨e, -, h⟩ | ⟨i, -, ⟨-, h⟩ | ⟨hi, h⟩⟩⟩ := step_cases s <;> rw [h]
  · exact .inl ⟨s, rfl⟩
  · exact .inr (.inl ⟨e, rfl⟩)
  · exact .inl ((hs.applyRecord r rest).exec_next i)
  · have henv : i.isEnvironment = false := (Bool.or_eq_false_iff.mp hi).1
    exact .inr (.inr ⟨i, henv, rfl⟩)

/-! ### The two contexts (R182, R65, R119) -/

/-- R182: the interrupt context performs the edges. -/
theorem eq_edge_of_interrupt {i : Instr} (hi : i.context = some .interrupt) :
    ∃ c, i = .edge0 c ∨ i = .edge1 c := by
  cases i with
  | edge0 c => exact ⟨c, .inl rfl⟩
  | edge1 c => exact ⟨c, .inr rfl⟩
  | _ => cases hi

/-- An edge leaves the session, the auxiliary line and the log, on either channel. -/
theorem exec_edge_session {c : Chan} {i : Instr} {s t : State} (hi : i = .edge0 c ∨ i = .edge1 c)
    (h : exec i s = .next t) (d : Chan) : (t.chan d).dig = (s.chan d).dig ∧
      (t.chan d).len = (s.chan d).len ∧ (t.chan d).last = (s.chan d).last ∧
      (t.chan d).aux = (s.chan d).aux ∧ t.out = s.out := by
  obtain ⟨hother, -, hdig, hlen, hlast, haux, -, hout, -⟩ :=
    edgeWritesFourRegistersOnly c i s t hi h
  obtain rfl | hd := eq_or_ne d c
  · exact ⟨hdig, hlen, hlast, haux, hout⟩
  · rw [hother d hd]
    exact ⟨rfl, rfl, rfl, rfl, hout⟩

/-- A write of channel `c` that leaves its `ts` leaves every `ts`. -/
theorem setChan_ts {s : State} {c : Chan} {k : Channel} (hk : k.ts = (s.chan c).ts) (d : Chan) :
    ((s.setChan c k).chan d).ts = (s.chan d).ts := by
  obtain rfl | hd := eq_or_ne d c
  · rw [chan_setChan_same, hk]
  · rw [chan_setChan_of_ne _ _ _ _ hd]

theorem perform_ts {s : State} {c : Chan} {e : Effect} (he : e.chan.ts = (s.chan c).ts)
    (d : Chan) : ((s.perform c e).chan d).ts = (s.chan d).ts :=
  setChan_ts he d

theorem keyButton_ts {c : Chan} {code : Nat} {s t : State} (h : keyButton c code s = .next t)
    (d : Chan) : (t.chan d).ts = (s.chan d).ts := by
  rw [keyButton_next_eq h]
  exact perform_ts (keyEffect_ts _ _ _ _) d

theorem pollChannel_ts {c : Chan} {s t : State} (h : pollChannel c s = .next t) (d : Chan) :
    (t.chan d).ts = (s.chan d).ts := by
  rw [pollChannel_next_eq h]
  exact perform_ts (pollEffect_ts _ _ _ c _) d

/-- R119: no operation of the main context writes `ts`. -/
theorem exec_main_ts {i : Instr} (hi : i.context = some .main) {s t : State}
    (h : exec i s = .next t) (d : Chan) : (t.chan d).ts = (s.chan d).ts := by
  cases i with
  | edge0 c => cases hi
  | edge1 c => cases hi
  | reset => cases hi
  | dec0 v => rw [← next_inj h, returnId_chan]
  | dec1 v => rw [← next_inj h, returnId_chan]
  | w26 c l id tr => rw [← next_inj h, credentialFrame, emit_chan]
  | rptf id ch => rw [← next_inj h, returnLine_chan]
  | rptp digits ch => rw [← next_inj h, returnLine_chan]
  | kesc c => exact next_inj h ▸ setChan_ts (by rfl) d
  | kent c =>
    obtain h' | ⟨j, h'⟩ := enter_cases c s
    · rw [← next_inj (h'.symm.trans h), ← emit_setChan, emit_chan]
      exact setChan_ts (by rfl) d
    · cases h'.symm.trans h
  | kdigit c code =>
    obtain h' | ⟨j, h'⟩ := appendDigit_cases c code s
    · exact next_inj (h'.symm.trans h) ▸ setChan_ts (by rfl) d
    · cases h'.symm.trans h
  | wkey c v => exact keyButton_ts h d
  | key c code => exact keyButton_ts h d
  | poll c => exact pollChannel_ts h d
  | pollall =>
    obtain ⟨u, h1, h2⟩ := andThen_eq_next.mp h
    exact (pollChannel_ts h2 d).trans (pollChannel_ts h1 d)

/-- Settles O47: the edges leave the session, the other operations the timestamp. -/
theorem eachContextWritesItsOwn : Obligations.EachContextWritesItsOwn := by
  intro i s t d h
  obtain ⟨hcfg, hus, hms, -⟩ := exec_sameInputs h
  refine ⟨fun hint => ?_, fun hmain => exec_main_ts hmain h d, hcfg, hus, hms⟩
  obtain ⟨c, hi⟩ := eq_edge_of_interrupt hint
  exact exec_edge_session hi h d

/-! ### A channel as a machine of its own (R190) -/

/-- The states agree on channel `c`: the same parameters, registers and events of the channel. -/
structure State.AgreeOn (c : Chan) (s u : State) : Prop where
  cfg : u.cfg = s.cfg
  chan : s.chan c = u.chan c
  events : eventsOf c s.out = eventsOf c u.out

/-- The states agree on channel `c` and stand at the same clock samples. -/
structure State.AgreeNow (c : Chan) (s u : State) : Prop extends State.AgreeOn c s u where
  nowUs : u.nowUs = s.nowUs
  nowMs : u.nowMs = s.nowMs

namespace State.AgreeOn

variable {c : Chan} {s t u : State}

/-- R13, R81: an operation brings its own samples, so the clocks before it do not matter, nor what
comes after it. -/
theorem applyRecord (h : s.AgreeOn c u) {r r' : Record} (hus : r'.nowUs = r.nowUs)
    (hms : r'.nowMs = r.nowMs) (rest rest' : List Record) :
    (applyRecord r rest s).AgreeNow c (applyRecord r' rest' u) where
  cfg := h.cfg
  chan := by simpa using h.chan
  events := h.events
  nowUs := by simp [h.cfg, hus]
  nowMs := by simp [h.cfg, hms]

/-- What one state still has to apply does not matter either. -/
theorem applyRecord_left (h : s.AgreeOn c u) (r : Record) (rest : List Record) :
    (Machine.applyRecord r rest s).AgreeOn c u :=
  { h with chan := by simpa using h.chan }

/-- An effect on channel `c` keeps the agreement on `c`. -/
theorem perform (h : s.AgreeOn c u) {e : Effect} (he : e.LogsOnly c) :
    (s.perform c e).AgreeOn c (u.perform c e) where
  cfg := by simpa using h.cfg
  chan := by simp
  events := by rw [eventsOf_perform s c e he, eventsOf_perform u c e he, h.events]

/-- R105, R110, R136: an effect on another channel does not concern channel `c`. -/
theorem perform_of_ne (h : s.AgreeOn c u) {d : Chan} (hd : d ≠ c) {e : Effect}
    (he : e.LogsOnly d) : (s.perform d e).AgreeOn c u where
  cfg := by simpa using h.cfg
  chan := by simpa [hd.symm] using h.chan
  events := by rw [eventsOf_perform_of_ne s d e he hd.symm, h.events]

theorem resetUnit (h : s.AgreeOn c u) : (resetUnit s).AgreeOn c (resetUnit u) where
  cfg := h.cfg
  chan := by simp
  events := rfl

end State.AgreeOn

/-- R80: an operation of the environment addresses one channel alone, or is one of the two that
address both. -/
theorem environment_cases {i : Instr} (hi : i.format = .opbyte) :
    (∃ d, i ∈ [.edge0 d, .edge1 d, .poll d]) ∨ i = .pollall ∨ i = .reset := by
  obtain ⟨d, rfl⟩ | ⟨d, rfl⟩ | ⟨d, rfl⟩ | rfl | rfl := (format_eq_opbyte_iff i).mp hi
  · exact .inl ⟨d, by simp⟩
  · exact .inl ⟨d, by simp⟩
  · exact .inl ⟨d, by simp⟩
  · exact .inr (.inl rfl)
  · exact .inr (.inr rfl)

/-- R190: the projection keeps an operation on one channel exactly if the channel is its own. -/
theorem projOp_of_mem {c d : Chan} {i : Instr} (hi : i ∈ [.edge0 d, .edge1 d, .poll d]) :
    projOp c i = if d = c then some i else none := by
  simp only [List.mem_cons, List.not_mem_nil, or_false] at hi
  obtain rfl | rfl | rfl := hi <;> rfl

/-- The projection of an operation of the environment is one of the environment's. -/
theorem projOp_format {c : Chan} {i j : Instr} (hi : i.format = .opbyte)
    (hj : projOp c i = some j) : j.format = .opbyte := by
  obtain ⟨d, hd⟩ | rfl | rfl := environment_cases hi
  · rw [projOp_of_mem hd, Option.ite_none_right_eq_some] at hj
    obtain ⟨-, ⟨⟩⟩ := hj
    exact hi
  · cases hj; rfl
  · cases hj; rfl

/-- R190: of channel `c` an operation makes what its projection makes. -/
theorem exec_agree_of_projOp_eq_some {c : Chan} {s u t v : State} (h : s.AgreeNow c u)
    (hs : s.Inv) (hu : u.Inv) {i j : Instr} (hi : i.format = .opbyte)
    (hj : projOp c i = some j) (ht : exec i s = .next t) (hv : exec j u = .next v) :
    t.AgreeOn c v := by
  obtain ⟨d, hd⟩ | rfl | rfl := environment_cases hi
  · rw [projOp_of_mem hd, Option.ite_none_right_eq_some] at hj
    obtain ⟨rfl, ⟨⟩⟩ := hj
    obtain ⟨effect, hlocal⟩ := exists_isLocal hd
    rw [hlocal.exec_eq s hs.cfg (hs.chan d).len_le] at ht
    rw [hlocal.exec_eq u hu.cfg (hu.chan d).len_le, h.cfg, h.nowUs, h.nowMs, ← h.chan] at hv
    rw [← next_inj ht, ← next_inj hv]
    exact h.toAgreeOn.perform (hlocal.logsOnly _ _ _ _)
  · cases hj
    obtain ⟨hchan, hevents⟩ := execPollall_next ht c
    have hlogs := pollEffect_logsOnly u.cfg u.nowUs u.nowMs c (u.chan c)
    have hpoll := pollChannel_next_eq hv
    rw [h.chan, ← h.cfg, ← h.nowUs, ← h.nowMs] at hchan hevents
    refine ⟨?_, ?_, ?_⟩
    · rw [(exec_sameInputs ht).cfg, (exec_sameInputs hv).cfg, h.cfg]
    · rw [hchan, hpoll, perform_chan]
    · rw [hevents, hpoll, eventsOf_perform u c _ hlogs, h.events]
  · cases hj
    rw [← next_inj ht, ← next_inj hv]
    exact h.toAgreeOn.resetUnit

/-- R190: of channel `c` an operation outside the projection makes nothing. -/
theorem exec_agree_of_projOp_eq_none {c : Chan} {s u t : State} (h : s.AgreeOn c u) (hs : s.Inv)
    {i : Instr} (hi : i.format = .opbyte) (hj : projOp c i = none) (ht : exec i s = .next t) :
    t.AgreeOn c u := by
  obtain ⟨d, hd⟩ | rfl | rfl := environment_cases hi
  · rw [projOp_of_mem hd, ite_eq_right_iff] at hj
    have hne : d ≠ c := fun heq => nomatch hj heq
    obtain ⟨effect, hlocal⟩ := exists_isLocal hd
    rw [hlocal.exec_eq s hs.cfg (hs.chan d).len_le] at ht
    rw [← next_inj ht]
    exact h.perform_of_ne hne (hlocal.logsOnly _ _ _ _)
  · cases hj
  · cases hj

/-- The record of an environment's operation, first in the input, leads to a state of the invariant
with the rest of the input. -/
theorem exists_step_environment {cfg : Config} {s : State} (hs : s.Inv) {a : Applied}
    {rest : List Record} (ha : a.op.format = .opbyte) (hin : s.input = a.record cfg :: rest) :
    ∃ t, step s = .next t ∧ exec a.op (applyRecord (a.record cfg) rest s) = .next t ∧ t.Inv ∧
      t.input = rest := by
  have hs' := hs.applyRecord (a.record cfg) rest
  obtain ⟨t, ht⟩ := hs'.exec_next a.op
  exact ⟨t, (step_environment ha hin).trans ht, ht, hs'.exec_environment ha ht,
    (exec_sameInputs ht).input⟩

/-- R190: a run of a trace and a run of its projection, from states that agree on the channel,
complete and agree on it. -/
theorem run_projTrace (cfg : Config) (c : Chan) (trace : List Applied)
    (htrace : ∀ a ∈ trace, a.op.format = .opbyte) {s u : State} (hs : s.Inv) (hu : u.Inv)
    (h : s.AgreeOn c u) (hsin : s.input = trace.map (Applied.record cfg))
    (huin : u.input = (projTrace c trace).map (Applied.record cfg)) :
    ∃ t v, run trace.length s = .next t ∧ run (projTrace c trace).length u = .next v ∧
      t.AgreeOn c v := by
  induction trace generalizing s u with
  | nil => exact ⟨s, u, rfl, rfl, h⟩
  | cons a trace ih =>
    obtain ⟨ha, htrace⟩ := List.forall_mem_cons.mp htrace
    obtain ⟨s', hstep, hexec, hs', hsin'⟩ := exists_step_environment hs ha hsin
    cases hj : projOp c a.op with
    | none =>
      have hproj : projTrace c (a :: trace) = projTrace c trace := by
        simp [projTrace, hj]
      rw [hproj] at huin ⊢
      have hagree := exec_agree_of_projOp_eq_none (h.applyRecord_left _ _) (hs.applyRecord _ _)
        ha hj hexec
      obtain ⟨t, v, ht, hv, htv⟩ := ih htrace hs' hu hagree hsin' huin
      exact ⟨t, v, andThen_eq_next.mpr ⟨s', hstep, ht⟩, hv, htv⟩
    | some j =>
      have hproj : projTrace c (a :: trace) = { a with op := j } :: projTrace c trace := by
        simp [projTrace, hj]
      rw [hproj] at huin ⊢
      obtain ⟨u', hstep', hexec', hu', huin'⟩ :=
        exists_step_environment hu (a := { a with op := j }) (projOp_format ha hj) huin
      have hnow := h.applyRecord (r := a.record cfg) (r' := Applied.record cfg { a with op := j })
        rfl rfl (trace.map (Applied.record cfg)) ((projTrace c trace).map (Applied.record cfg))
      have hagree := exec_agree_of_projOp_eq_some hnow (hs.applyRecord _ _) (hu.applyRecord _ _)
        ha hj hexec hexec'
      obtain ⟨t, v, ht, hv, htv⟩ := ih htrace hs' hu' hagree hsin' huin'
      exact ⟨t, v, andThen_eq_next.mpr ⟨s', hstep, ht⟩, andThen_eq_next.mpr ⟨u', hstep', hv⟩, htv⟩

/-- Settles O50: the two runs begin in one state, but for what is still to be applied. -/
theorem channelsAreIndependent : Obligations.ChannelsAreIndependent := by
  intro c s trace hs htrace
  obtain ⟨t, u, ht, hu, h⟩ := run_projTrace s.cfg c trace (fun a ha => beq_iff_eq.mp (htrace a ha))
    (hs.load (trace.map _)) (hs.load ((projTrace c trace).map _)) ⟨rfl, by simp, rfl⟩ rfl rfl
  exact ⟨t, u, ht, hu, h.chan, h.events⟩

end Sys2Proof.Machine
end

section
/-! SUPPORT. The statements of 70_reset_and_hazards.md: what RESET clears (R195) and what it leaves
(R196). -/

namespace Sys2Proof.Machine

/-- R195: RESET always completes. -/
theorem exec_reset (s : State) : exec .reset s = .next (resetUnit s) := rfl

/-- R195: a second RESET finds nothing left to clear. -/
@[simp] theorem resetUnit_resetUnit (s : State) : resetUnit (resetUnit s) = resetUnit s := rfl

/-- Settles O39: either channel is `Channel.reset` afterwards, and each of its registers is 0. -/
theorem resetClearsTheUnit : Obligations.ResetClearsTheUnit := by
  intro s
  refine ⟨resetUnit s, exec_reset s, resetUnit_out s, rfl, fun c => ?_⟩
  rw [resetUnit_chan]
  exact ⟨rfl, rfl, rfl, rfl, fun _ => rfl, rfl, rfl, rfl⟩

/-- Settles O40: like any operation RESET keeps its inputs; it hands out nothing, and clearing is
idempotent. -/
theorem resetKeepsParametersAndInputs : Obligations.ResetKeepsParametersAndInputs := by
  intro s t h
  obtain ⟨hcfg, hus, hms, hinput⟩ := exec_sameInputs h
  obtain rfl := next_inj ((exec_reset s).symm.trans h)
  refine ⟨hcfg, hus, hms, hinput, resetUnit_ret s, ?_⟩
  rw [exec_reset, resetUnit_resetUnit]

end Sys2Proof.Machine
end

section
/-! SUPPORT. Records written out byte by byte: each is the encoding of the operation it names, so the
round trip of 30_encoding.md decodes it. -/

namespace Sys2Proof.Machine

/-- The table's defaults (R7) meet the constraint column: they are the reset state's parameters. -/
theorem wf_default : Config.default.Wf := resetMeetsTheInvariant.cfg

/-- At the default parameters the bytes of a well-formed operation decode to it. -/
theorem decode_default_of_encode_eq {f : Format} {bytes : List Byte} {i : Instr}
    (hi : i.wellFormed Config.default = true) (hformat : i.format = f)
    (hbytes : encode Config.default i = bytes) : decode Config.default f bytes = .ok i := by
  subst hformat hbytes
  exact decodeReadsBackEncode Config.default i wf_default hi

/-- Settles O5: every record is the encoding of its operation. The frame's bytes are those of R73's
number form. -/
theorem specWordsDecode : Obligations.SpecWordsDecode := by
  have hframe : (frameValue 1 0xABCDEF 0).toNat = 0x3579BDE := frameValue_toNat 1 0xABCDEF 0
  refine ⟨?edge1, ?poll, ?dec1, ?w26, ?wkey, ?key, ?kesc, ?kent, ?kdigit, ?rptf, ?rptp⟩
  case w26 => exact decode_default_of_encode_eq rfl rfl (by rw [encode, hframe]; decide)
  all_goals exact decode_default_of_encode_eq (by decide) rfl (by decide)

end Sys2Proof.Machine
end
